-- ==== Sys2Proof/Word.lean ====
section
/-! DEFINITION. The word types of the Line Codec: the 2-bit element (30_encoding.md R75), the 4-bit command word
(R70), the 3-bit scheme word of the noise unit (R85), and the type of a host-writable buffer. -/

namespace Sys2Proof

/-- One element of a buffer, a Bit or a Level, `ELEM_W` = 2 bits (R7, R75). -/
abbrev Elem := BitVec 2

/-- A command word of format C, `CMD_W` = 4 bits: `dsss` (R70). -/
abbrev CmdWord := BitVec 4

/-- A command word of format N, `SCHEME_W` = 3 bits: `sss` (R85). -/
abbrev SchemeWord := BitVec 3

/-- A buffer the host writes element by element (`IBUF`, `NIN`): the pairs (index, element) of the indices that have
been written since the last reset, strictly rising. An unlisted index has no specified value (R39, U4). -/
abbrev Memory := List (Nat × Elem)

end Sys2Proof
end

