-- ==== Sys2Proof/Config.lean ====
section
/-! DEFINITION. The implementation parameters of 00_scope.md R7 and the free values of 93_implementation_defined.md.
The formulas R7 gives for `MAX_OUT`, `MAX_W` and `LEN_W` are in Machine/Params.lean. -/

namespace Sys2Proof

/-- The parameters one instance of the block is built with. R7 leaves them to the instance (and
`HOST_BUS` to the abstract moves of R214 and R215, as R57 says). R37: fixed per instance, no step changes them. -/
structure Config where
  /-- `MAX_IN`, the capacity of `IBUF`; any integer >= 8. -/
  maxIn : Nat
  /-- `HAS_NOISE_UNIT`. -/
  hasNoiseUnit : Bool
  /-- The capacity of `NIN` and `NOUT`, left open by R161. -/
  noiseCap : Nat
deriving DecidableEq, Repr

/-- R7: `MAX_IN` >= 8. -/
abbrev Config.Ok (c : Config) : Prop := 8 ≤ c.maxIn

/-- The parameters of the machine that `State.reset` describes. DESIGN CHOICE (assumption 1): R7 leaves them to the instance.
`MAX_IN` = 31 carries every row of 95_test_vectors.md and has the `LEN_W` = 6 of its section 6.1. -/
def Config.chosen : Config := { maxIn := 31, hasNoiseUnit := true, noiseCap := 62 }

/-- `FRAME_BITS`, the frame size every decode pads to, fixed at 8 (R7, D7). -/
abbrev frameBits : Nat := 8

/-! Free values (assumptions 3 to 6): constants without a body, applied to a counter that State holds and to the place
that is read. Nothing in Lean can evaluate them. -/

/-- U4: element `i` of `IBUF` before the host has written it, after the `era`-th reset. -/
opaque Config.freeIbuf : Nat → Nat → Elem

/-- U4: element `i` of `NIN` before the host has written it, after the `era`-th reset. -/
opaque Config.freeNin : Nat → Nat → Elem

/-- U2, U4: element `i` of `OBUF` where the last successful transaction wrote nothing. -/
opaque Config.freeObuf : Nat → Nat → Elem

/-- U2, U4: the record at index `i` of `WBUF` where the last successful transaction wrote nothing: its `kind` bit and,
before it is cut to `LEN_W` bits, its `val`. -/
opaque Config.freeWbuf : Nat → Nat → Bool × Nat

/-- U2 for the noise unit: element `i` of `NOUT` where the last `NOISE` wrote nothing. -/
opaque Config.freeNout : Nat → Nat → Elem

/-- U3: what a host read of control register `r` returns while `BUSY` = 1, before it is cut to the register's width. It
and the two below are applied to the counter `draws` (assumption 5). -/
opaque Config.busyReg : Nat → Nat → Nat

/-- U3: what a host read of `OBUF[i]` returns while `BUSY` = 1. -/
opaque Config.busyObuf : Nat → Nat → Elem

/-- U3: what a host read of `WBUF[i]` returns while `BUSY` = 1: `kind`, and `val` before it is cut. -/
opaque Config.busyWbuf : Nat → Nat → Bool × Nat

/-- U11, R163: the flip mask F drawn by the noise unit's `draw`-th run, at index `i`, for 0 < p < 1. -/
opaque Config.flipDraw : Nat → Nat → Bool

end Sys2Proof
end

