-- ==== Sys2Proof/Machine/Params.lean ====
section
/-! DEFINITION. The parameters 00_scope.md R7 derives from `MAX_IN`. -/

namespace Sys2Proof

/-- R7: `MAX_OUT` = 2 * `MAX_IN`. -/
def Config.maxOut (c : Config) : Nat := 2 * c.maxIn

/-- R7: `MAX_W` = floor(`MAX_IN` / 2) + 1. -/
def Config.maxW (c : Config) : Nat := c.maxIn / 2 + 1

/-- R7: `LEN_W` = ceil(log2(`MAX_OUT` + 1)), which for `MAX_OUT` >= 1 is the number of binary digits of `MAX_OUT`. -/
def Config.lenW (c : Config) : Nat := Nat.log2 c.maxOut + 1

/-- R86: a register of `LEN_W` bits keeps the low `LEN_W` bits of what is written to it. -/
def Config.cutLen (c : Config) (v : Nat) : Nat := v % 2 ^ c.lenW

end Sys2Proof
end

