-- ==== Sys2Proof/Syntax.lean ====
section
/-! DEFINITION. The instruction set: the seven schemes, the scheme-id field, the 17 rows of the opcode table
(30_encoding.md R72, R78, R85), and the two command formats. -/

namespace Sys2Proof

/-- The seven schemes in the order of R72: the position is the scheme id. -/
inductive Scheme where
  | nrz | nrzi | ami | man | dman | bpm | bps
deriving DecidableEq, Repr

/-- The value of a 3-bit scheme field: a scheme, or the reserved id 7 (R72, R79). -/
inductive SchemeId where
  | known (s : Scheme)
  | reserved
deriving DecidableEq, Repr

/-- The operations: the 14 operations of CORE (R2), the two reserved command words, which are defined to raise
`InvalidSchemeError` (R79), and the noise unit's `NOISE` with its scheme field (R85, R164). No CORE operation has an
explicit operand (R74). -/
inductive Instr where
  | encNrz | encNrzi | encAmi | encMan | encDman | encBpm | encBps
  | decNrz | decNrzi | decAmi | decMan | decDman | decBpm | decBps
  | reservedEnc7 | reservedDec7
  | noise (scheme : SchemeId)
deriving DecidableEq, Repr

/-- A command word together with the register it is written to: format C goes to `CMD` (R70), format N to the noise
unit's own command register (R85), which `CMD` cannot reach. -/
inductive Command where
  | c (w : CmdWord)
  | n (w : SchemeWord)
deriving DecidableEq, Repr

end Sys2Proof
end

