-- ==== Sys2Proof/Machine/State.lean ====
section
/-! DEFINITION. The state of one instance of the Line Codec (10_state.md), the moves of the world outside it
(70_reset_and_hazards.md R210, R214; 43_noise_aux.md R160), the reasons a step can stop, and the state after reset. -/

namespace Sys2Proof.Machine

/-- The polarity held by `pol` (R21, R23): +1 or -1. -/
inductive Polarity where
  | plus | minus
deriving DecidableEq, Repr

/-- The `ERR` field of `STATUS` (R31, R77): 0 none, 1 `InvalidSchemeError`, 2 `InvalidBitError`, 3 `InvalidLevelError`. -/
inductive ErrCode where
  | noError | invalidScheme | invalidBit | invalidLevel
deriving DecidableEq, Repr

/-- The status of the noise unit (43_noise_aux.md R168): 0 none, 1 `InvalidSchemeError`, 2 `InvalidProbabilityError`. -/
inductive NoiseErr where
  | noError | invalidScheme | invalidProbability
deriving DecidableEq, Repr

/-- The `kind` of a warning record (R76). -/
inductive WarnKind where
  | invalidTransition | padding
deriving DecidableEq, Repr

/-- One record of `WBUF` (R76): `IT(k)` is ⟨invalidTransition, k⟩, `PAD(c)` is ⟨padding, c⟩. -/
structure Warning where
  kind : WarnKind
  val : Nat
deriving DecidableEq, Repr

/-- A host write (R214 and R28; R160 for the noise unit). A value `v` comes from a bus of any width; the block keeps
the bits its register has (R86). -/
inductive HostWrite where
  /-- Control register number `r` (R28): 0 `CMD`, 1 `ILEN`, 2 `STATUS`, 3 `OLEN`, 4 `PADCNT`, 5 `WCNT`. -/
  | reg (r v : Nat)
  /-- `IBUF[i]`. -/
  | ibuf (i v : Nat)
  /-- `OBUF[i]`. -/
  | obuf (i v : Nat)
  /-- `WBUF[i]`. -/
  | wbuf (i v : Nat)
  /-- `NIN[i]` of the noise unit. -/
  | nin (i v : Nat)
  /-- `NLEN` of the noise unit. -/
  | nlen (v : Nat)
  /-- `NPROB` of the noise unit. -/
  | nprob (p : Rat)
deriving DecidableEq, Repr

/-- What happens next to the instance, as the world outside it decides. -/
inductive Event where
  /-- The host writes. -/
  | write (w : HostWrite)
  /-- The host writes a command word of format N to the noise unit's command register (R85). -/
  | noise (v : Nat)
  /-- The engine gets to move before the host does anything else. -/
  | engine
  /-- Hardware reset (R210: at any time). -/
  | reset
deriving DecidableEq, Repr

/-- The state of one instance: the four classes of R20, the instance's parameters, and the model's own counters and
event list. -/
structure State where
  /-- The parameters of the instance (R7, R37): no step changes them. -/
  cfg : Config
  -- Working registers (R21)
  /-- Level at the end of the last emitted symbol (R22); true is level 1. -/
  cur : Bool
  /-- Polarity of the last non-zero AMI level (R23). -/
  pol : Polarity
  /-- Second level of the previously consumed symbol (R24); true is level 1. -/
  prevEnd : Bool
  /-- The bit most recently appended by `DEC.MAN` (R25). -/
  prevBit : Bool
  /-- Position in the input sequence (R27). -/
  idx : Nat
  /-- Number of elements appended to the output so far (R26). -/
  optr : Nat
  /-- Number of warning records appended so far (R26). -/
  wptr : Nat
  /-- The input length latched at start (R26). -/
  n : Nat
  /-- The command latched at start (R26). -/
  lcmd : CmdWord
  -- Control and status registers (R28)
  cmd : CmdWord
  /-- A `LEN_W`-bit count. -/
  ilen : Nat
  /-- `STATUS.BUSY` (R31). -/
  busy : Bool
  /-- `STATUS.ERR` (R31). -/
  err : ErrCode
  olen : Nat
  padcnt : Nat
  wcnt : Nat
  -- Buffers (R34 to R36)
  ibuf : Memory
  /-- `OBUF[0], OBUF[1], ...` as far as their values are specified; what lies beyond reads as a free value (R66). -/
  obuf : List Elem
  /-- `WBUF[0], WBUF[1], ...` as far as their values are specified (R66). -/
  wbuf : List Warning
  -- The noise unit (43_noise_aux.md R161)
  nin : Memory
  nlen : Nat
  nout : List Elem
  nscheme : SchemeWord
  nprob : Rat
  nstatus : NoiseErr
  -- The model's own fields
  /-- What is still going to happen, the next first; when none is left, only the engine moves. -/
  events : List Event
  /-- Number of resets so far: selects the free contents of the unwritten part of `IBUF` and `NIN`. -/
  era : Nat
  /-- Number of successful transactions and resets so far: selects the free contents beyond the specified part of
  `OBUF` and `WBUF` and the free results of reads while `BUSY` = 1. -/
  draws : Nat
  /-- Number of successful `NOISE` runs and resets so far: selects the flip mask and the free contents of `NOUT`. -/
  ndraws : Nat
deriving DecidableEq, Repr

/-- Why the machine stops with a fault. Every fault is raised by a move of the host outside the spaces that exist. -/
inductive Fault where
  /-- Raised by a host write or read of a buffer element the buffer does not have (20_memory.md R50). Safe. -/
  | noSuchIndex
  /-- Raised by a host write or read of a control register other than 0 to 5 (R28, R50). Safe. -/
  | noSuchRegister
deriving DecidableEq, Repr

/-- Why the model gives no meaning. -/
inductive Refusal where
  /-- An instruction without a meaning, by its mnemonic; raised by no arm of this model. Safe. -/
  | notModelled (mnemonic : String)
  /-- Raised by a start with `ILEN` > `MAX_IN` (R30, U1: "a model refuses it"), and by an operation whose latched
  length is such a value. Safe. -/
  | ilenReserved
  /-- Raised by a move of the host to the noise unit, or `NOISE`, on an instance without one (R85). Safe. -/
  | noiseUnitAbsent
  /-- Raised by `NOISE` with `NLEN` above the capacity of `NIN` (R161 leaves the capacity open). Safe. -/
  | nlenReserved
  /-- Raised by `NOISE` on a level outside the scheme's alphabet (R164, U5: "a model refuses it"). Safe. -/
  | noiseLevelUnspecified
deriving DecidableEq, Repr

/-- The state of an instance with parameters `cfg` right after power-on reset, with `events` about to happen. R39:
control and status registers 0, `BUSY` 0, no transaction started; buffers unspecified (nothing listed). The working
registers, which R39 leaves unspecified, hold their starting values of R21, with `n` and `lcmd` 0, and the noise
unit's registers are 0 (assumption 2). -/
def State.power (cfg : Config) (events : List Event) : State :=
  { cfg := cfg
    cur := false, pol := .plus, prevEnd := false, prevBit := false
    idx := 0, optr := 0, wptr := 0, n := 0, lcmd := 0#4
    cmd := 0#4, ilen := 0, busy := false, err := .noError, olen := 0, padcnt := 0, wcnt := 0
    ibuf := [], obuf := [], wbuf := []
    nin := [], nlen := 0, nout := [], nscheme := 0#3, nprob := 0, nstatus := .noError
    events := events, era := 0, draws := 0, ndraws := 0 }

/-- The machine right after reset, with nothing about to happen. -/
def State.reset : State := State.power Config.chosen []

end Sys2Proof.Machine
end

