-- ==== Sys2Proof/Machine/Flags.lean ====
section
/-! DEFINITION. The codes of errors and warnings and the `STATUS` register (30_encoding.md R76, R77; 10_state.md R31;
43_noise_aux.md R168). -/

namespace Sys2Proof.Machine

/-- R77: the 2-bit error code. -/
def ErrCode.code : ErrCode → Nat
  | .noError => 0
  | .invalidScheme => 1
  | .invalidBit => 2
  | .invalidLevel => 3

/-- R168: the status codes of the noise unit. -/
def NoiseErr.code : NoiseErr → Nat
  | .noError => 0
  | .invalidScheme => 1
  | .invalidProbability => 2

/-- R31: bit 0 is `BUSY`, bits 2:1 are `ERR`. -/
def statusWord (busy : Bool) (errCode : Nat) : Nat := 2 * errCode + (if busy then 1 else 0)

/-- R76: the `kind` bit. -/
def WarnKind.code : WarnKind → Nat
  | .invalidTransition => 0
  | .padding => 1

/-- The kind a `kind` bit stands for (R76). -/
def WarnKind.ofBit : Bool → WarnKind
  | false => .invalidTransition
  | true => .padding

/-- R76: a record as a word of 1 + `LEN_W` bits, `kind` at bit `LEN_W` and `val` below it. -/
def Warning.word (c : Config) (w : Warning) : Nat := w.kind.code * 2 ^ c.lenW + c.cutLen w.val

/-- A free record, its `val` cut to `LEN_W` bits. -/
def freeRecord (c : Config) (r : Bool × Nat) : Warning := { kind := WarnKind.ofBit r.1, val := c.cutLen r.2 }

/-- The record at index `i` of `WBUF`: where the last successful transaction wrote nothing, a free one (R66, U2). -/
def State.readWbuf (s : State) (i : Nat) : Warning :=
  s.wbuf[i]?.getD (freeRecord s.cfg (Config.freeWbuf s.draws i))

end Sys2Proof.Machine
end

