-- ==== Sys2Proof/Machine/Memory.lean ====
section
/-! DEFINITION. The two accesses to a host-writable buffer and its canonical form (20_memory.md R50, R55). -/

namespace Sys2Proof

/-- The element listed at index `i`; `none` where nothing has been written, whose value is unspecified. -/
def Memory.read : Memory → Nat → Option Elem
  | [], _ => none
  | (j, e) :: m, i => if i = j then some e else Memory.read m i

/-- R55: a write moves exactly one element. -/
def Memory.write : Memory → Nat → Elem → Memory
  | [], i, v => [(i, v)]
  | (j, e) :: m, i, v =>
    if i < j then (i, v) :: (j, e) :: m
    else if i = j then (i, v) :: m
    else (j, e) :: Memory.write m i v

/-- The canonical form: indices strictly rising and below the capacity. An unlisted index has no specified value, and
no listed element is unspecified, so equal contents are equal lists. -/
abbrev Memory.wf (cap : Nat) (m : Memory) : Prop :=
  m.Pairwise (fun a b => a.1 < b.1) ∧ ∀ p ∈ m, p.1 < cap

end Sys2Proof
end

