-- ==== Sys2Proof/Machine/Operands.lean ====
section
/-! DEFINITION. What an operation reads and how a value is put into an element: the element format (30_encoding.md
R75), the helper functions of 00_scope.md R10, the alphabets of R72, and the reads of the buffers. -/

namespace Sys2Proof.Machine

/-- R11: a 2-bit element read as a two's complement integer. -/
def sext2 (e : Elem) : Int := e.toInt

/-- R11: the inverse of `sext2` on -2..1. -/
def enc2 (v : Int) : Elem := BitVec.ofInt 2 v

/-- R10: `b2i(t)` is 1 when `t` holds, else 0. It is also the value of a 1-bit level register. -/
def b2i (t : Bool) : Int := if t then 1 else 0

/-- The level a 1-bit register receives from a value of {0, 1}. -/
def levelBit (v : Int) : Bool := v == 1

/-- R10: `neg(p)`. -/
def Polarity.neg : Polarity → Polarity
  | .plus => .minus
  | .minus => .plus

/-- R10: a polarity is +1 or -1. -/
def Polarity.value : Polarity → Int
  | .plus => 1
  | .minus => -1

/-- The alphabet of a BitSequence (R75), the input of every encode (R94). -/
def bitAlphabet : List Int := [0, 1]

/-- R72: the level alphabet of a scheme. -/
def levelAlphabet : Scheme → List Int
  | .ami => [-1, 0, 1]
  | .nrz | .nrzi | .man | .dman | .bpm | .bps => [0, 1]

/-- R72: levels-per-bit. -/
def levelsPerBit : Scheme → Nat
  | .nrz | .nrzi | .ami => 1
  | .man | .dman | .bpm | .bps => 2

/-- R72, R93: the scheme of a scheme field, if its id is not reserved. -/
def schemeOf : SchemeId → Option Scheme
  | .known s => some s
  | .reserved => none

/-- Element `i` of `IBUF`: what was written there, or, before any write, a free value (R39, U4). -/
def State.readIbuf (s : State) (i : Nat) : Elem := (s.ibuf.read i).getD (Config.freeIbuf s.era i)

/-- R12: `IN(i)`. -/
def State.input (s : State) (i : Nat) : Int := sext2 (s.readIbuf i)

/-- Element `i` of `OBUF`: where the last successful transaction wrote nothing, a free value (R66, U2). -/
def State.readObuf (s : State) (i : Nat) : Elem := s.obuf[i]?.getD (Config.freeObuf s.draws i)

/-- Element `i` of `NIN`. -/
def State.readNin (s : State) (i : Nat) : Elem := (s.nin.read i).getD (Config.freeNin s.era i)

/-- The level at index `i` of the noise unit's input (R161). -/
def State.noiseInput (s : State) (i : Nat) : Int := sext2 (s.readNin i)

/-- Element `i` of `NOUT`. -/
def State.readNout (s : State) (i : Nat) : Elem := s.nout[i]?.getD (Config.freeNout s.ndraws i)

end Sys2Proof.Machine
end

