-- ==== Sys2Proof/Machine/Ops.lean ====
section
/-! DEFINITION. The primitives of 00_scope.md R12 and the phases of a transaction (40_dispatch.md R90): start, element
check, execute, padding, finish, and error entry (60_exceptions.md R186). -/

namespace Sys2Proof.Machine

/-- R12: `emit(v)` writes `enc_2(v)` at index `optr` of `OBUF` and advances `optr`. What lies above the written part is
from then on unspecified (R66, R219). -/
def State.emit (s : State) (v : Int) : State :=
  { s with obuf := s.obuf.take s.optr ++ [enc2 v], optr := s.optr + 1 }

/-- Several `emit`s, one after the other. -/
def State.emitAll (s : State) (vs : List Int) : State := vs.foldl State.emit s

/-- R12: `warn(kind, val)` writes a record at index `wptr` of `WBUF` and advances `wptr`. -/
def State.warn (s : State) (kind : WarnKind) (val : Nat) : State :=
  { s with wbuf := s.wbuf.take s.wptr ++ [{ kind := kind, val := val }], wptr := s.wptr + 1 }

/-- R12: `idx <- idx + k`. -/
def State.advance (s : State) (k : Nat) : State := { s with idx := s.idx + k }

/-- R102: a counted loop without early exit. Each of `count` iterations runs `body` at the current `idx` and then
advances `idx` by `stride`. -/
def countedLoop (stride : Nat) (body : State → State) : Nat → State → State
  | 0, s => s
  | count + 1, s => countedLoop stride body count ((body s).advance stride)

/-- R21, R212: the working registers at the start of every transaction, except `n` and `lcmd`. -/
def State.initWork (s : State) : State :=
  { s with cur := false, pol := .plus, prevEnd := false, prevBit := false, idx := 0, optr := 0, wptr := 0 }

/-- R91: start, one atomic step. `ERR`, `OLEN`, `PADCNT`, `WCNT`, `OBUF`, `WBUF` keep their contents. -/
def State.start (s : State) (c : CmdWord) : State :=
  { s.initWork with cmd := c, lcmd := c, n := s.ilen, busy := true }

/-- R186: error entry, one atomic step, and nothing else. -/
def State.raise (s : State) (e : ErrCode) : State :=
  { s with err := e, olen := 0, padcnt := 0, wcnt := 0, busy := false }

/-- R97: finish on success, one atomic step. What lies beyond `OLEN` in `OBUF` and beyond `WCNT` in `WBUF` is
unspecified (R66): `draws` moves on, so that it reads as a fresh free value. -/
def State.finish (s : State) (pad : Nat) : State :=
  { s with
    olen := s.optr, wcnt := s.wptr, padcnt := pad, err := .noError, busy := false
    obuf := s.obuf.take s.optr, wbuf := s.wbuf.take s.wptr, draws := s.draws + 1 }

/-- R94: every `IN(i)`, 0 <= i < `n`, is in the legal set. -/
def State.elementsLegal (s : State) (legal : List Int) : Bool :=
  (List.range s.n).all fun i => legal.contains (s.input i)

/-- R90: the element check and then the execute and finish phases of an operation whose scheme check has passed (the
reserved words have operations of their own). An input longer than `IBUF` has no meaning (R30, U1). -/
def transact (legal : List Int) (e : ErrCode) (body : State → State) (s : State) :
    Host.Outcome State Fault Refusal :=
  if s.cfg.maxIn < s.n then .refused .ilenReserved
  else if s.elementsLegal legal then .next (body s)
  else .next (s.raise e)

/-- R110: the common frame of every `ENC.*`: the input is a BitSequence, nothing is padded, no warning is given. -/
def encodeWith (body : State → State) (s : State) : Host.Outcome State Fault Refusal :=
  transact bitAlphabet .invalidBit (fun t => (countedLoop 1 body t.n t).finish 0) s

/-- R146: `(-r) mod FRAME_BITS`. -/
def padCount (r : Nat) : Nat := (frameBits - r % frameBits) % frameBits

/-- R146: the padding step: `pad` zeros, and a `PADDING` warning when there are any. -/
def State.padZeros (s : State) (pad : Nat) : State :=
  if pad = 0 then s else (s.emitAll (List.replicate pad 0)).warn .padding pad

/-- R146, R97: the padding step after the raw bits, then finish. -/
def State.padAndFinish (s : State) : State := (s.padZeros (padCount s.optr)).finish (padCount s.optr)

/-- R130: the common frame of every `DEC.*`: the input is a LevelSequence of the scheme, `raw` is the scheme's rule, and
the padding step follows. -/
def decodeWith (scheme : Scheme) (raw : State → State) (s : State) : Host.Outcome State Fault Refusal :=
  transact (levelAlphabet scheme) .invalidLevel (fun t => (raw t).padAndFinish) s

end Sys2Proof.Machine
end

