-- ==== Sys2Proof/Machine/Decoder.lean ====
section
/-! DEFINITION. The seven decoders (42_decode.md R131 to R137), each as its element-step program. A decoder of a
2-level scheme visits the floor(`n` / 2) whole symbols; an unpaired last level is checked and then ignored (R138). -/

namespace Sys2Proof.Machine

/-- R131: one element of `DEC.NRZ`. -/
def decNrzBody (s : State) : State := s.emit (s.input s.idx)

/-- R131 `DEC.NRZ`: bit = level. -/
def execDecNrz (s : State) : Host.Outcome State Fault Refusal :=
  decodeWith .nrz (fun t => countedLoop 1 decNrzBody t.n t) s

/-- R132: one element of `DEC.NRZI`. -/
def decNrziBody (s : State) : State := s.emit (b2i (s.input s.idx != s.input (s.idx - 1)))

/-- R132, R27: the first sample emits nothing; the loop runs over idx = 1 .. n-1. -/
def decNrziRaw (s : State) : State :=
  if s.n = 0 then s else countedLoop 1 decNrziBody (s.n - 1) (s.advance 1)

/-- R132 `DEC.NRZI`. -/
def execDecNrzi (s : State) : Host.Outcome State Fault Refusal := decodeWith .nrzi decNrziRaw s

/-- R133: one element of `DEC.AMI`: the sign is discarded. -/
def decAmiBody (s : State) : State := s.emit (b2i (s.input s.idx != 0))

/-- R133 `DEC.AMI`. -/
def execDecAmi (s : State) : Host.Outcome State Fault Refusal :=
  decodeWith .ami (fun t => countedLoop 1 decAmiBody t.n t) s

/-- Append a Manchester bit; `prev_bit` holds the last bit appended (R25, R134). -/
def State.emitManBit (s : State) (bit : Bool) : State := { s.emit (b2i bit) with prevBit := bit }

/-- R134: one symbol of `DEC.MAN`: (0,1) is bit 0, (1,0) is bit 1, any other pair repeats the previous bit and is
reported with its symbol number. -/
def decManBody (s : State) : State :=
  let a := s.input s.idx
  let b := s.input (s.idx + 1)
  if a == 0 && b == 1 then s.emitManBit false
  else if a == 1 && b == 0 then s.emitManBit true
  else (s.warn .invalidTransition (s.idx / 2)).emitManBit s.prevBit

/-- R134 `DEC.MAN`. -/
def execDecMan (s : State) : Host.Outcome State Fault Refusal :=
  decodeWith .man (fun t => countedLoop 2 decManBody (t.n / 2) t) s

/-- R135: one symbol of `DEC.DMAN`: the first levels of two successive symbols are compared. -/
def decDmanBody (s : State) : State := s.emit (b2i (s.input s.idx == s.input (s.idx + 2)))

/-- R135 `DEC.DMAN`: the loop stops before the last symbol. -/
def execDecDman (s : State) : Host.Outcome State Fault Refusal :=
  decodeWith .dman (fun t => countedLoop 2 decDmanBody (t.n / 2 - 1) t) s

/-- R136, R137: `prev_end <- IN(2k+1)`. -/
def State.keepEnd (s : State) : State := { s with prevEnd := levelBit (s.input (s.idx + 1)) }

/-- R136: one symbol of `DEC.BPM`: bit 1 if the level at symbol start differs from the previous symbol's end. -/
def decBpmBody (s : State) : State := (s.emit (b2i (s.input s.idx != b2i s.prevEnd))).keepEnd

/-- R136 `DEC.BPM`. -/
def execDecBpm (s : State) : Host.Outcome State Fault Refusal :=
  decodeWith .bpm (fun t => countedLoop 2 decBpmBody (t.n / 2) t) s

/-- R137: one symbol of `DEC.BPS`: bit 1 if the level at symbol start equals the previous symbol's end. -/
def decBpsBody (s : State) : State := (s.emit (b2i (s.input s.idx == b2i s.prevEnd))).keepEnd

/-- R137 `DEC.BPS`. -/
def execDecBps (s : State) : Host.Outcome State Fault Refusal :=
  decodeWith .bps (fun t => countedLoop 2 decBpsBody (t.n / 2) t) s

end Sys2Proof.Machine
end

