-- ==== Sys2Proof/Machine/Encoder.lean ====
section
/-! DEFINITION. The seven encoders (41_encode.md R111 to R117), each as its element-step program. -/

namespace Sys2Proof.Machine

/-- R111: one element of `ENC.NRZ`. -/
def encNrzBody (s : State) : State := s.emit (s.input s.idx)

/-- R111 `ENC.NRZ`: level = bit. -/
def execEncNrz (s : State) : Host.Outcome State Fault Refusal := encodeWith encNrzBody s

/-- The complement of `cur` when `t` holds (R22). -/
def State.flipCurIf (s : State) (t : Bool) : State := { s with cur := if t then !s.cur else s.cur }

/-- R112: one element of `ENC.NRZI`: a 1-bit flips the level before it is emitted. -/
def encNrziBody (s : State) : State :=
  let s := s.flipCurIf (s.input s.idx == 1)
  s.emit (b2i s.cur)

/-- R112 `ENC.NRZI`. -/
def execEncNrzi (s : State) : Host.Outcome State Fault Refusal := encodeWith encNrziBody s

/-- `pol <- neg(pol)`, the only way `pol` changes (R23). -/
def State.flipPol (s : State) : State := { s with pol := s.pol.neg }

/-- R113: one element of `ENC.AMI`: a 1-bit flips the polarity and emits the flipped one. -/
def encAmiBody (s : State) : State :=
  if s.input s.idx == 0 then s.emit 0
  else
    let s := s.flipPol
    s.emit s.pol.value

/-- R113 `ENC.AMI`. -/
def execEncAmi (s : State) : Host.Outcome State Fault Refusal := encodeWith encAmiBody s

/-- R114: one element of `ENC.MAN`: 0 gives [0,1], 1 gives [1,0]. -/
def encManBody (s : State) : State :=
  if s.input s.idx == 0 then (s.emit 0).emit 1 else (s.emit 1).emit 0

/-- R114 `ENC.MAN`. -/
def execEncMan (s : State) : Host.Outcome State Fault Refusal := encodeWith encManBody s

/-- The symbol all of R115 to R117 emit: a transition at symbol start when `start` holds, the first half, a transition
at mid-point always, the second half. -/
def State.emitSymbol (s : State) (start : Bool) : State :=
  let s := s.flipCurIf start
  let s := s.emit (b2i s.cur)
  let s := s.flipCurIf true
  s.emit (b2i s.cur)

/-- R115: one element of `ENC.DMAN`: a 1-bit has a transition at symbol start. -/
def encDmanBody (s : State) : State := s.emitSymbol (s.input s.idx == 1)

/-- R115 `ENC.DMAN`. -/
def execEncDman (s : State) : Host.Outcome State Fault Refusal := encodeWith encDmanBody s

/-- R116: one element of `ENC.BPM`: a 1-bit has an additional transition at symbol start. -/
def encBpmBody (s : State) : State := s.emitSymbol (s.input s.idx == 1)

/-- R116 `ENC.BPM`. -/
def execEncBpm (s : State) : Host.Outcome State Fault Refusal := encodeWith encBpmBody s

/-- R117: one element of `ENC.BPS`: a 0-bit has a transition at symbol start. -/
def encBpsBody (s : State) : State := s.emitSymbol (s.input s.idx == 0)

/-- R117 `ENC.BPS`. -/
def execEncBps (s : State) : Host.Outcome State Fault Refusal := encodeWith encBpsBody s

end Sys2Proof.Machine
end

