-- ==== Sys2Proof/Machine/Noise.lean ====
section
/-! DEFINITION. The auxiliary channel-noise unit (43_noise_aux.md). -/

namespace Sys2Proof.Machine

/-- R163: the flip mask at index `i` of the unit's `draw`-th run: p = 0 forces false, p = 1 forces true, and for
0 < p < 1 it is a free value. -/
def flipMask (p : Rat) (draw i : Nat) : Bool :=
  if p ≤ 0 then false else if 1 ≤ p then true else Config.flipDraw draw i

/-- R164: a flipped level: 0 and 1 change places; an AMI mark collapses to 0 and an AMI 0 becomes +1. -/
def flipLevel (scheme : Scheme) (v : Int) : Int :=
  match scheme with
  | .ami => if v == 1 || v == -1 then 0 else 1
  | .nrz | .nrzi | .man | .dman | .bpm | .bps => 1 - v

/-- R164: element `i` of the output. -/
def State.noisyLevel (s : State) (scheme : Scheme) (i : Nat) : Int :=
  if flipMask s.nprob s.ndraws i then flipLevel scheme (s.noiseInput i) else s.noiseInput i

/-- R164: the precondition: every `NIN[i]`, i < `NLEN`, is in the scheme's alphabet. -/
def State.noiseLegal (s : State) (scheme : Scheme) : Bool :=
  (List.range s.nlen).all fun i => (levelAlphabet scheme).contains (s.noiseInput i)

/-- R167, R168: an error of the unit sets its status and nothing else; `NOUT` is not written. -/
def State.noiseRaise (s : State) (e : NoiseErr) : State := { s with nstatus := e }

/-- R164: the output replaces `NOUT`; the input is not modified. DESIGN CHOICE (assumption 24): R161's "no state that
survives from one `NOISE` operation to the next" is read as no hidden state, so `NIN`, `NLEN`, `NPROB`, `NOUT` and the
status keep what they hold, and a further command reuses the inputs that have not been rewritten. -/
def State.noiseFinish (s : State) (scheme : Scheme) : State :=
  { s with
    nout := (List.range s.nlen).map fun i => enc2 (s.noisyLevel scheme i)
    nstatus := .noError, ndraws := s.ndraws + 1 }

/-- The write of a command word of format N to the unit's command register (R85, R161). -/
def State.startNoise (s : State) (w : SchemeWord) : State := { s with nscheme := w }

/-- R164 after R168's checks, in their order: the scheme id, then the probability. -/
def execNoise (sid : SchemeId) (s : State) : Host.Outcome State Fault Refusal :=
  if s.cfg.hasNoiseUnit then
    match schemeOf sid with
    | none => .next (s.noiseRaise .invalidScheme)
    | some scheme =>
      if s.nprob < 0 ∨ 1 < s.nprob then .next (s.noiseRaise .invalidProbability)
      else if s.cfg.noiseCap < s.nlen then .refused .nlenReserved
      else if s.noiseLegal scheme then .next (s.noiseFinish scheme)
      else .refused .noiseLevelUnspecified
  else .refused .noiseUnitAbsent

end Sys2Proof.Machine
end

