-- ==== Sys2Proof/Machine/Reserved.lean ====
section
/-! DEFINITION. The two reserved command words (30_encoding.md R79): a transaction that ends in the scheme check. -/

namespace Sys2Proof.Machine

/-- R93, R181: command word `0111`: `InvalidSchemeError`, before any element is read. -/
def execReservedEnc7 (s : State) : Host.Outcome State Fault Refusal := .next (s.raise .invalidScheme)

/-- R93, R181: command word `1111`: `InvalidSchemeError`, before any element is read. -/
def execReservedDec7 (s : State) : Host.Outcome State Fault Refusal := .next (s.raise .invalidScheme)

end Sys2Proof.Machine
end

