-- ==== Sys2Proof/Machine/Dispatch.lean ====
section
/-! DEFINITION. The dispatch (40_dispatch.md R95, R96): one arm per instruction. -/

namespace Sys2Proof.Machine

def exec (i : Instr) (s : State) : Host.Outcome State Fault Refusal :=
  match i with
  | .encNrz => Sys2Proof.Machine.execEncNrz s
  | .encNrzi => Sys2Proof.Machine.execEncNrzi s
  | .encAmi => Sys2Proof.Machine.execEncAmi s
  | .encMan => Sys2Proof.Machine.execEncMan s
  | .encDman => Sys2Proof.Machine.execEncDman s
  | .encBpm => Sys2Proof.Machine.execEncBpm s
  | .encBps => Sys2Proof.Machine.execEncBps s
  | .decNrz => Sys2Proof.Machine.execDecNrz s
  | .decNrzi => Sys2Proof.Machine.execDecNrzi s
  | .decAmi => Sys2Proof.Machine.execDecAmi s
  | .decMan => Sys2Proof.Machine.execDecMan s
  | .decDman => Sys2Proof.Machine.execDecDman s
  | .decBpm => Sys2Proof.Machine.execDecBpm s
  | .decBps => Sys2Proof.Machine.execDecBps s
  | .reservedEnc7 => Sys2Proof.Machine.execReservedEnc7 s
  | .reservedDec7 => Sys2Proof.Machine.execReservedDec7 s
  | .noise sid => Sys2Proof.Machine.execNoise sid s

end Sys2Proof.Machine
end

