-- ==== Sys2Proof/Decode.lean ====
section
/-! DEFINITION. The decoder and, after it, the encoder of command words (30_encoding.md R70 to R72, R78, R84, R85).
Decoding a command word is total (R84): the reserved words have constructors of their own. -/

namespace Sys2Proof

/-- Why a string of bits is no command word. -/
inductive DecodeError where
  /-- Fewer bits than the shortest format, N, has (R85). -/
  | tooShort
deriving DecidableEq, Repr

/-- R72: the scheme ids 0 to 6, and 7 reserved. -/
def SchemeId.ofWord (w : SchemeWord) : SchemeId :=
  match w.toNat with
  | 0 => .known .nrz
  | 1 => .known .nrzi
  | 2 => .known .ami
  | 3 => .known .man
  | 4 => .known .dman
  | 5 => .known .bpm
  | 6 => .known .bps
  | _ => .reserved

/-- R70: bits 2:0 of a command word are the scheme field. -/
def schemeField (w : CmdWord) : SchemeWord := w.extractLsb' 0 3

/-- R70, R71: bit 3 is `dir`; true means decode. -/
def dirField (w : CmdWord) : Bool := w.getLsbD 3

/-- R71, R78: `dir` selects which of the scheme's two operations runs; scheme 7 is a reserved word. -/
def coreInstr : Bool → SchemeId → Instr
  | false, .known .nrz => .encNrz
  | false, .known .nrzi => .encNrzi
  | false, .known .ami => .encAmi
  | false, .known .man => .encMan
  | false, .known .dman => .encDman
  | false, .known .bpm => .encBpm
  | false, .known .bps => .encBps
  | false, .reserved => .reservedEnc7
  | true, .known .nrz => .decNrz
  | true, .known .nrzi => .decNrzi
  | true, .known .ami => .decAmi
  | true, .known .man => .decMan
  | true, .known .dman => .decDman
  | true, .known .bpm => .decBpm
  | true, .known .bps => .decBps
  | true, .reserved => .reservedDec7

/-- R78, R84, R85: every word of either format is one instruction; no other input is needed (R81). -/
def decode : Command → Instr
  | .c w => coreInstr (dirField w) (SchemeId.ofWord (schemeField w))
  | .n w => .noise (SchemeId.ofWord w)

/-- A string of `nbits` bits offered as a command word: 3 bits are format N; 4 or more are a write to `CMD`, of which
only bits 3:0 are kept (R86); fewer are rejected by name. -/
def decodeBits (nbits w : Nat) : Except DecodeError Instr :=
  if nbits < 3 then .error .tooShort
  else if nbits = 3 then .ok (decode (.n (BitVec.ofNat 3 w)))
  else .ok (decode (.c (BitVec.ofNat 4 w)))

/-- The instruction the decoder reads from an opcode-table word of `nbits` bits. -/
def decodeTableWord (nbits w : Nat) : Option Instr :=
  match decodeBits nbits w with
  | .ok i => some i
  | .error _ => none

/-- R72: the 3-bit id of a scheme field's value. -/
def SchemeId.word : SchemeId → SchemeWord
  | .known .nrz => 0b000#3
  | .known .nrzi => 0b001#3
  | .known .ami => 0b010#3
  | .known .man => 0b011#3
  | .known .dman => 0b100#3
  | .known .bpm => 0b101#3
  | .known .bps => 0b110#3
  | .reserved => 0b111#3

/-- The command word of an instruction, from the opcode map of R78 and format N of R85. -/
def encode : Instr → Command
  | .encNrz => .c 0b0000#4
  | .encNrzi => .c 0b0001#4
  | .encAmi => .c 0b0010#4
  | .encMan => .c 0b0011#4
  | .encDman => .c 0b0100#4
  | .encBpm => .c 0b0101#4
  | .encBps => .c 0b0110#4
  | .reservedEnc7 => .c 0b0111#4
  | .decNrz => .c 0b1000#4
  | .decNrzi => .c 0b1001#4
  | .decAmi => .c 0b1010#4
  | .decMan => .c 0b1011#4
  | .decDman => .c 0b1100#4
  | .decBpm => .c 0b1101#4
  | .decBps => .c 0b1110#4
  | .reservedDec7 => .c 0b1111#4
  | .noise sid => .n sid.word

end Sys2Proof
end

