-- ==== Sys2Proof/Machine/HostPort.lean ====
section
/-! DEFINITION. The moves of the host and hardware reset (10_state.md R28, 20_memory.md R50, 70_reset_and_hazards.md
R210 to R219). A host write to CORE has an effect only while `BUSY` = 0 (R216). -/

namespace Sys2Proof.Machine

/-- R28, R91, R218: a write to `CMD` while `BUSY` = 0 starts a transaction; while `BUSY` = 1 it is ignored entirely. A
start with a reserved `ILEN` is refused (R30, U1). -/
def State.writeCmd (s : State) (v : Nat) : Host.Outcome State Fault Refusal :=
  if s.busy then .next s
  else if s.cfg.maxIn < s.ilen then .refused .ilenReserved
  else .next (s.start (BitVec.ofNat 4 v))

/-- R28, R214, R86: a write to `ILEN` keeps the register's width; ignored while `BUSY` = 1. -/
def State.writeIlen (s : State) (v : Nat) : State :=
  if s.busy then s else { s with ilen := s.cfg.cutLen v }

/-- R34, R214: a write to `IBUF[i]`; ignored while `BUSY` = 1. DESIGN CHOICE (assumption 19): R86, a rule about registers,
is applied to elements too, so an element keeps the low 2 bits of what is written. -/
def State.writeIbuf (s : State) (i v : Nat) : State :=
  if s.busy then s else { s with ibuf := s.ibuf.write i (BitVec.ofNat 2 v) }

/-- R28: a host write to control register `r`; `STATUS`, `OLEN`, `PADCNT` and `WCNT` ignore it. -/
def State.writeReg (s : State) (r v : Nat) : Host.Outcome State Fault Refusal :=
  match r with
  | 0 => s.writeCmd v
  | 1 => .next (s.writeIlen v)
  | 2 | 3 | 4 | 5 => .next s
  | _ => .fault .noSuchRegister

/-- An access to index `i` of a space of `cap` units (R50); an index beyond it does not exist. -/
def atIndex (i cap : Nat) (s : State) : Host.Outcome State Fault Refusal :=
  if i < cap then .next s else .fault .noSuchIndex

/-- A move of the host to the noise unit, when there is one. -/
def State.toNoiseUnit (s : State) (o : Host.Outcome State Fault Refusal) : Host.Outcome State Fault Refusal :=
  if s.cfg.hasNoiseUnit then o else .refused .noiseUnitAbsent

/-- R214, R28, R35, R36: a host write. `OBUF` and `WBUF` ignore it. R160: the noise unit's own inputs are written
whatever `BUSY` is (assumption 15), an element of `NIN` with its low 2 bits (assumption 19). -/
def hostWrite (w : HostWrite) (s : State) : Host.Outcome State Fault Refusal :=
  match w with
  | .reg r v => s.writeReg r v
  | .ibuf i v => atIndex i s.cfg.maxIn (s.writeIbuf i v)
  | .obuf i _ => atIndex i s.cfg.maxOut s
  | .wbuf i _ => atIndex i s.cfg.maxW s
  | .nin i v => s.toNoiseUnit (atIndex i s.cfg.noiseCap { s with nin := s.nin.write i (BitVec.ofNat 2 v) })
  | .nlen v => s.toNoiseUnit (.next { s with nlen := v })
  | .nprob p => s.toNoiseUnit (.next { s with nprob := p })

/-- R210, R39: hardware reset. The transaction in progress is abandoned, and every buffer is unspecified again. What is
going to happen next outside the block, and the parameters, are not the block's to reset. -/
def State.hardReset (s : State) : State :=
  { State.power s.cfg s.events with era := s.era + 1, draws := s.draws + 1, ndraws := s.ndraws + 1 }

/-- R28, R31, R215: the stored value of control register `r`. -/
def State.regValue (s : State) : Nat → Option Nat
  | 0 => some s.cmd.toNat
  | 1 => some s.ilen
  | 2 => some (statusWord s.busy s.err.code)
  | 3 => some s.olen
  | 4 => some s.padcnt
  | 5 => some s.wcnt
  | _ => none

/-- R217: control register `r` while `BUSY` = 1: `CMD` and `ILEN` are stable, `STATUS` shows `BUSY` = 1 and an
unspecified `ERR`, the result registers are unspecified within their widths. DESIGN CHOICE (assumption 5): the
unspecified value is one free value for as long as `draws` stands still, that is through the transaction and through
later ones that are separated from it by errors alone. -/
def State.busyRegValue (s : State) : Nat → Option Nat
  | 0 => some s.cmd.toNat
  | 1 => some s.ilen
  | 2 => some (statusWord true (Config.busyReg s.draws 2 % 4))
  | 3 => some (s.cfg.cutLen (Config.busyReg s.draws 3))
  | 4 => some (Config.busyReg s.draws 4 % 8)
  | 5 => some (s.cfg.cutLen (Config.busyReg s.draws 5))
  | _ => none

/-- R215, R217: what a host read of control register `r` returns. A read changes no state (R215), so it is no event. -/
def hostReadReg (s : State) (r : Nat) : Except Fault Nat :=
  match (if s.busy then s.busyRegValue r else s.regValue r) with
  | some v => .ok v
  | none => .error .noSuchRegister

/-- R215, R217: what a host read of `IBUF[i]` returns; it is stable while `BUSY` = 1. -/
def hostReadIbuf (s : State) (i : Nat) : Except Fault Elem :=
  if i < s.cfg.maxIn then .ok (s.readIbuf i) else .error .noSuchIndex

/-- R215, R217: what a host read of `OBUF[i]` returns; while `BUSY` = 1 a free value that stays the same for as long as
`draws` stands still (DESIGN CHOICE, assumption 5). -/
def hostReadObuf (s : State) (i : Nat) : Except Fault Elem :=
  if i < s.cfg.maxOut then .ok (if s.busy then Config.busyObuf s.draws i else s.readObuf i)
  else .error .noSuchIndex

/-- R215, R217: what a host read of `WBUF[i]` returns, as a word of 1 + `LEN_W` bits (R76); while `BUSY` = 1 a free one
that stays the same for as long as `draws` stands still (DESIGN CHOICE, assumption 5). -/
def hostReadWbuf (s : State) (i : Nat) : Except Fault Nat :=
  if i < s.cfg.maxW then
    .ok ((if s.busy then freeRecord s.cfg (Config.busyWbuf s.draws i) else s.readWbuf i).word s.cfg)
  else .error .noSuchIndex

/-- R160, R161: what a host read of `NOUT[i]` returns, when there is a noise unit. -/
def hostReadNout (s : State) (i : Nat) : Option Elem :=
  if s.cfg.hasNoiseUnit ∧ i < s.cfg.noiseCap then some (s.readNout i) else none

/-- R161, R168: the noise unit's status code, when there is a noise unit. -/
def hostReadNstatus (s : State) : Option Nat :=
  if s.cfg.hasNoiseUnit then some s.nstatus.code else none

end Sys2Proof.Machine
end

