-- ==== Sys2Proof/Machine/Fetch.lean ====
section
/-! DEFINITION. What the next step does. The block fetches no instructions (10_state.md R27): a command word reaches it
by a write of the host, is latched in `lcmd`, and is executed when the engine moves. -/

namespace Sys2Proof.Machine

/-- What the next step is: an instruction run on a state, or a move that runs none. -/
inductive Todo where
  | run (i : Instr) (s : State)
  | done (o : Host.Outcome State Fault Refusal)

/-- R91, R95: while `BUSY` = 1 the engine runs the operation of `lcmd`; while `BUSY` = 0 it does nothing (R200). -/
def engineMove (s : State) : Todo :=
  if s.busy then .run (decode (.c s.lcmd)) s else .done (.next s)

/-- R85, R161: a command word of format N is written to the noise unit's command register, and its operation runs at
once on the scheme id held there: the unit has no busy protocol. -/
def noiseMove (s : State) (w : SchemeWord) : Todo :=
  .run (decode (.n (s.startNoise w).nscheme)) (s.startNoise w)

/-- The next event is taken off the list and happens. When no event is left, only the engine can move (R222: once
started, it keeps stepping). -/
def fetch (s : State) : Todo :=
  match s.events with
  | [] => engineMove s
  | .engine :: rest => engineMove { s with events := rest }
  | .write w :: rest => .done (hostWrite w { s with events := rest })
  | .noise v :: rest => noiseMove { s with events := rest } (BitVec.ofNat 3 v)
  | .reset :: rest => .done (.next ({ s with events := rest }.hardReset))

/-- The state in which the very next step runs the command word `w` of `nbits` bits. Format N: the host is about to
write it to the noise unit's command register. Format C: the host has just written it to `CMD` (R91), and the engine
moves next. -/
def State.placeCommand (s : State) (nbits w : Nat) : State :=
  if nbits ≤ 3 then { s with events := .noise w :: s.events }
  else { s.start (BitVec.ofNat 4 w) with events := .engine :: s.events }

end Sys2Proof.Machine
end

