-- ==== Sys2Proof/Machine/Step.lean ====
section
/-! DEFINITION. One step of the machine: the next event, or the engine's move. A transaction takes two steps: the host's
write of `CMD` (R91), and the engine's run to finish or error entry (R93 to R97, R186). -/

namespace Sys2Proof.Machine

/-- One step. -/
def step (s : State) : Host.Outcome State Fault Refusal :=
  match fetch s with
  | .run i t => exec i t
  | .done o => o

/-- The state in which the very next step runs exactly the command word `w` of `nbits` bits. -/
def State.withFetchWord (s : State) (nbits w : Nat) : State := s.placeCommand nbits w

end Sys2Proof.Machine
end

