-- ==== Sys2Proof/Machine/Functions.lean ====
section
/-! DEFINITION. The function on sequences of every operation, in the closed form its rule gives beside the element-step
program (00_scope.md R13). The machine runs the programs; the statements say that they compute these functions. -/

namespace Sys2Proof.Machine

/-- c_i of 41_encode.md R110: the number of 1-bits among B[0] .. B[i]. -/
def onesUpTo (B : List Int) (i : Nat) : Nat := (B.take (i + 1)).count 1

/-- R110: the number of 1-bits mod 2 as a level. -/
def parity (k : Nat) : Int := (k % 2 : Nat)

/-- R111: `ENC_NRZ(B) = B`. -/
def encNrzFn (B : List Int) : List Int := B

/-- R112: L[i] = c_i mod 2. -/
def encNrziFn (B : List Int) : List Int := (List.range B.length).map fun i => parity (onesUpTo B i)

/-- R113: L[i] = 0 if B[i] = 0, else (-1)^(c_i). -/
def encAmiFn (B : List Int) : List Int :=
  (List.range B.length).map fun i => if B.getD i 0 = 0 then 0 else (-1) ^ onesUpTo B i

/-- R114: L[2i] = B[i], L[2i+1] = not(B[i]). -/
def encManFn (B : List Int) : List Int :=
  (List.range B.length).flatMap fun i => [B.getD i 0, 1 - B.getD i 0]

/-- R115: L[2i] = (c_i + i) mod 2, L[2i+1] = (c_i + i + 1) mod 2. -/
def encDmanFn (B : List Int) : List Int :=
  (List.range B.length).flatMap fun i => [parity (onesUpTo B i + i), parity (onesUpTo B i + i + 1)]

/-- R116: L[2i] = (c_i + i) mod 2, L[2i+1] = (c_i + i + 1) mod 2. -/
def encBpmFn (B : List Int) : List Int :=
  (List.range B.length).flatMap fun i => [parity (onesUpTo B i + i), parity (onesUpTo B i + i + 1)]

/-- R117: L[2i] = (c_i + 1) mod 2, L[2i+1] = c_i mod 2. -/
def encBpsFn (B : List Int) : List Int :=
  (List.range B.length).flatMap fun i => [parity (onesUpTo B i + 1), parity (onesUpTo B i)]

/-- The seven encoders. -/
def encFn : Scheme → List Int → List Int
  | .nrz => encNrzFn
  | .nrzi => encNrziFn
  | .ami => encAmiFn
  | .man => encManFn
  | .dman => encDmanFn
  | .bpm => encBpmFn
  | .bps => encBpsFn

/-- R131: `RAW_NRZ(L) = L`. -/
def rawNrzFn (L : List Int) : List Int := L

/-- R132: R[j] = b2i(L[j+1] != L[j]), j = 0 .. n-2. -/
def rawNrziFn (L : List Int) : List Int :=
  (List.range (L.length - 1)).map fun j => b2i (L.getD (j + 1) 0 != L.getD j 0)

/-- R133: R[i] = b2i(L[i] != 0). -/
def rawAmiFn (L : List Int) : List Int := L.map fun v => b2i (v != 0)

/-- R134: R[k] from R[k-1]; `prev` is R[-1]. -/
def rawManFrom (prev : Int) : List Int → List Int
  | a :: b :: rest =>
    let bit := if a = 0 ∧ b = 1 then 0 else if a = 1 ∧ b = 0 then 1 else prev
    bit :: rawManFrom bit rest
  | _ => []

/-- R134: with R[-1] = 0. -/
def rawManFn (L : List Int) : List Int := rawManFrom 0 L

/-- R134: the symbol numbers k < M whose pair is (0,0) or (1,1). -/
def invalidSymbols (L : List Int) : List Nat :=
  (List.range (L.length / 2)).filter fun k => L.getD (2 * k) 0 == L.getD (2 * k + 1) 0

/-- R135: R[k] = b2i(L[2k] == L[2k+2]), k = 0 .. M-2. -/
def rawDmanFn (L : List Int) : List Int :=
  (List.range (L.length / 2 - 1)).map fun k => b2i (L.getD (2 * k) 0 == L.getD (2 * k + 2) 0)

/-- R136: E[0] = 0, E[k] = L[2k-1]. -/
def prevLevel (L : List Int) (k : Nat) : Int := if k = 0 then 0 else L.getD (2 * k - 1) 0

/-- R136: R[k] = b2i(L[2k] != E[k]), k = 0 .. M-1. -/
def rawBpmFn (L : List Int) : List Int :=
  (List.range (L.length / 2)).map fun k => b2i (L.getD (2 * k) 0 != prevLevel L k)

/-- R137: R[k] = b2i(L[2k] == E[k]), k = 0 .. M-1. -/
def rawBpsFn (L : List Int) : List Int :=
  (List.range (L.length / 2)).map fun k => b2i (L.getD (2 * k) 0 == prevLevel L k)

/-- The raw functions of the seven decoders. -/
def rawFn : Scheme → List Int → List Int
  | .nrz => rawNrzFn
  | .nrzi => rawNrziFn
  | .ami => rawAmiFn
  | .man => rawManFn
  | .dman => rawDmanFn
  | .bpm => rawBpmFn
  | .bps => rawBpsFn

/-- R139: the raw bit count r for an input of `n` levels. -/
def rawCount (n : Nat) : Scheme → Nat
  | .nrz | .ami => n
  | .nrzi => n - 1
  | .man | .bpm | .bps => n / 2
  | .dman => n / 2 - 1

/-- R134, R140: the `IT` records, of `DEC.MAN` alone, in increasing symbol number. -/
def transitionWarnings (scheme : Scheme) (L : List Int) : List Warning :=
  match scheme with
  | .man => (invalidSymbols L).map fun k => { kind := .invalidTransition, val := k }
  | .nrz | .nrzi | .ami | .dman | .bpm | .bps => []

/-- R146: `[PAD(pad)]` if pad > 0, else `[]`. -/
def padWarnings (pad : Nat) : List Warning := if pad = 0 then [] else [{ kind := .padding, val := pad }]

/-- What the host can observe of a finished transaction (R17). -/
structure Results where
  err : ErrCode
  out : List Int
  pad : Nat
  warns : List Warning
deriving DecidableEq, Repr

/-- R186: the results of a transaction that ends in error `e`. -/
def Results.ofError (e : ErrCode) : Results := { err := e, out := [], pad := 0, warns := [] }

/-- R130: the triple `DEC_S(L)`. -/
def decResults (scheme : Scheme) (L : List Int) : Results :=
  let raw := rawFn scheme L
  let pad := padCount raw.length
  { err := .noError, out := raw ++ List.replicate pad 0, pad := pad
    warns := transitionWarnings scheme L ++ padWarnings pad }

/-- R97, R110: the results of `ENC_S(B)`. -/
def encResults (scheme : Scheme) (B : List Int) : Results :=
  { err := .noError, out := encFn scheme B, pad := 0, warns := [] }

/-- R17, R92: the results of a transaction as a function of the command (its direction, true for decode, and its scheme
field) and of the input sequence alone, with the checks in the order of R187. -/
def codec (dir : Bool) (sid : SchemeId) (X : List Int) : Results :=
  match sid, dir with
  | .reserved, _ => .ofError .invalidScheme
  | .known scheme, false =>
    if X.all bitAlphabet.contains then encResults scheme X else .ofError .invalidBit
  | .known scheme, true =>
    if X.all (levelAlphabet scheme).contains then decResults scheme X else .ofError .invalidLevel

end Sys2Proof.Machine
end

