-- ==== Sys2Proof/Machine/Script.lean ====
section
/-! DEFINITION. Host scripts (30_encoding.md R82, R83): the statements the spec writes programs in, as the host moves
they stand for. None of them is an operation of the block. -/

namespace Sys2Proof.Machine

/-- A statement of a host script. `op` is written `ENC.<S>` or `DEC.<S>`, `raw` is `RAW <hex>`. -/
inductive Statement where
  | load (xs : List Int)
  | op (decodes : Bool) (scheme : Scheme)
  | raw (c : CmdWord)
  | move
  | moveFirst (k : Nat)
deriving DecidableEq, Repr

/-- R83 `LOAD`: write the elements to `IBUF` from index 0 on, then `ILEN`. -/
def loadEvents (xs : List Elem) : List Event :=
  (xs.mapIdx fun i e => Event.write (.ibuf i e.toNat)) ++ [.write (.reg 1 xs.length)]

/-- R83: write a command word to `CMD`, then poll `STATUS` until `BUSY` = 0; polling changes nothing (R215), so all that
is left of it is that the engine moves. -/
def commandEvents (c : CmdWord) : List Event := [.write (.reg 0 c.toNat), .engine]

/-- R83 `MOVE k`: copy the first k elements of `OBUF` to `IBUF` and set `ILEN` to k. -/
def moveEvents (s : State) (k : Nat) : List Event := loadEvents ((List.range k).map s.readObuf)

/-- R78: the command word of a statement `ENC.<S>` or `DEC.<S>`. -/
def opWord (decodes : Bool) (scheme : Scheme) : CmdWord :=
  (if decodes then 1#1 else 0#1) ++ (SchemeId.known scheme).word

/-- The host moves of a statement, made in the state `s`. -/
def Statement.events (s : State) : Statement → List Event
  | .load xs => loadEvents (xs.map enc2)
  | .op decodes scheme => commandEvents (opWord decodes scheme)
  | .raw c => commandEvents c
  | .move => moveEvents s s.olen
  | .moveFirst k => moveEvents s k

/-- R83 `RT.<S>`: `ENC.<S>`, `MOVE`, `DEC.<S>`. -/
def roundTrip (scheme : Scheme) : List Statement := [.op false scheme, .move, .op true scheme]

/-- Steps until `k` have been made, or the machine stops. -/
def runSteps : Nat → State → Host.Outcome State Fault Refusal
  | 0, s => .next s
  | k + 1, s =>
    match step s with
    | .next t => runSteps k t
    | .fault r => .fault r
    | .refused r => .refused r

/-- Run a script: each statement's moves happen one after the other, in the state the earlier ones left. -/
def runScript : List Statement → State → Host.Outcome State Fault Refusal
  | [], s => .next s
  | st :: rest, s =>
    match runSteps (st.events s).length { s with events := st.events s } with
    | .next t => runScript rest t
    | .fault r => .fault r
    | .refused r => .refused r

end Sys2Proof.Machine
end

