-- ==== Sys2Proof/WellFormed.lean ====
section
/-! DEFINITION. Which instructions an instance of the block has (30_encoding.md R78, R85). -/

namespace Sys2Proof

/-- R78: all 16 words of format C exist on every instance; R85: `NOISE` exists only when `HAS_NOISE_UNIT` is true. The
reserved words are well-formed: R79 gives them an effect. -/
def Instr.wellFormed (cfg : Config) : Instr → Bool
  | .encNrz | .encNrzi | .encAmi | .encMan | .encDman | .encBpm | .encBps => true
  | .decNrz | .decNrzi | .decAmi | .decMan | .decDman | .decBpm | .decBps => true
  | .reservedEnc7 | .reservedDec7 => true
  | .noise _ => cfg.hasNoiseUnit

end Sys2Proof
end

