-- ==== Sys2Proof/Safety.lean ====
section
/-! DEFINITION. The terms claims are stated in: the input and the observed results of a transaction (00_scope.md R17), a
started and an idle state, the invariant of the machine, its reachable states, and what counts as a safe run. -/

namespace Sys2Proof.Machine

/-- R92: the input sequence X = [IN(0), ..., IN(n-1)] of the transaction in progress. -/
def State.inputSeq (s : State) : List Int := (List.range s.n).map s.input

/-- The sequence `IBUF[0 .. ILEN-1]` the next transaction would read. -/
def State.loadedSeq (s : State) : List Int := (List.range s.ilen).map s.input

/-- R97: the output sequence `OBUF[0 .. OLEN-1]`. -/
def State.output (s : State) : List Int := (List.range s.olen).map fun i => sext2 (s.readObuf i)

/-- R146: the payload, the output without its padding. -/
def State.payload (s : State) : List Int := s.output.take (s.olen - s.padcnt)

/-- R97: the warnings `WBUF[0 .. WCNT-1]`. -/
def State.warnings (s : State) : List Warning := (List.range s.wcnt).map s.readWbuf

/-- R17: what is observable of the last finished transaction. -/
def State.results (s : State) : Results :=
  { err := s.err, out := s.output, pad := s.padcnt, warns := s.warnings }

/-- R97: the results of a successful transaction delivered: the output in `OBUF` and the warnings in `WBUF` from index 0
on, nothing specified beyond them (R66), their counts, the padding count, no error, `BUSY` = 0. -/
def State.delivered (s : State) (out : List Int) (pad : Nat) (warns : List Warning) : State :=
  { s with
    optr := out.length, wptr := warns.length, obuf := out.map enc2, wbuf := warns
    olen := out.length, wcnt := warns.length, padcnt := pad, err := .noError, busy := false
    draws := s.draws + 1 }

/-- R130, R97: what a decode with these raw bits and these invalid symbols delivers. -/
def State.decoded (s : State) (raw : List Int) (invalid : List Nat) : State :=
  s.delivered (raw ++ List.replicate ((8 - raw.length % 8) % 8) 0) ((8 - raw.length % 8) % 8)
    ((invalid.map fun k => { kind := .invalidTransition, val := k }) ++
      if raw.length % 8 = 0 then [] else [{ kind := .padding, val := (8 - raw.length % 8) % 8 }])

/-- A transaction has been started (R91) and the engine has not moved yet: `BUSY` = 1, the command and the length are
latched, and the working registers hold their starting values (R21, R33). -/
structure State.Started (s : State) : Prop where
  busy : s.busy = true
  lcmd : s.lcmd = s.cmd
  len : s.n = s.ilen
  fits : s.n ≤ s.cfg.maxIn
  cur : s.cur = false
  pol : s.pol = .plus
  prevEnd : s.prevEnd = false
  prevBit : s.prevBit = false
  idx : s.idx = 0
  optr : s.optr = 0
  wptr : s.wptr = 0

/-- The invariant every step keeps. -/
structure State.Inv (s : State) : Prop where
  /-- R7: `MAX_IN` >= 8. -/
  cfg : s.cfg.Ok
  /-- The host-written buffers are in canonical form, within their capacities (R50). -/
  ibuf : Memory.wf s.cfg.maxIn s.ibuf
  nin : Memory.wf s.cfg.noiseCap s.nin
  /-- R28: `ILEN` fits its width. -/
  ilen : s.ilen < 2 ^ s.cfg.lenW
  /-- R8, R35: the output and its specified part fit `OBUF`; the output is specified. -/
  olen : s.olen ≤ s.obuf.length
  obuf : s.obuf.length ≤ s.cfg.maxOut
  /-- R8, R36: the same for the warnings and `WBUF`. -/
  wcnt : s.wcnt ≤ s.wbuf.length
  wbuf : s.wbuf.length ≤ s.cfg.maxW
  /-- R76: `val` fits `LEN_W` bits. -/
  vals : ∀ w ∈ s.wbuf, w.val < 2 ^ s.cfg.lenW
  /-- R75: the engine writes only `00`, `01` and `11`. -/
  elems : ∀ e ∈ s.obuf, e ≠ 0b10#2
  /-- R28: `PADCNT` holds 0 .. `FRAME_BITS` - 1; R146: the padding is part of the output. -/
  padcnt : s.padcnt < frameBits
  padding : s.padcnt ≤ s.olen
  /-- R32, R186: after an error there is no output and no warning. -/
  errors : s.err ≠ .noError → s.olen = 0 ∧ s.padcnt = 0 ∧ s.wcnt = 0
  /-- R21, R27: the counters stay in range. -/
  n : s.n ≤ s.cfg.maxIn
  idx : s.idx ≤ s.n
  optr : s.optr ≤ s.cfg.maxOut
  wptr : s.wptr ≤ s.cfg.maxW
  /-- R216: while `BUSY` = 1 nothing but the engine changes what the start latched. -/
  started : s.busy = true → s.Started
  /-- R161: `NOUT` fits its capacity. -/
  nout : s.nout.length ≤ s.cfg.noiseCap

/-- The states an instance can reach from power-on reset, whatever its parameters are and whatever happens to it. -/
inductive Reachable : State → Prop where
  | power (cfg : Config) (events : List Event) (h : cfg.Ok) : Reachable (State.power cfg events)
  | step (s t : State) (h : Reachable s) (hs : step s = .next t) : Reachable t

/-- A safe step: neither a fault nor a refusal. -/
def State.SafeStep (s : State) : Prop := ∃ t, step s = .next t

/-- R94: the input of an encode is a BitSequence. -/
abbrev State.BitsLegal (s : State) : Prop := ∀ i < s.n, s.input i ∈ bitAlphabet

/-- R94: the input of a decode is a LevelSequence of the scheme. -/
abbrev State.LevelsLegal (s : State) (scheme : Scheme) : Prop := ∀ i < s.n, s.input i ∈ levelAlphabet scheme

/-- A host write to a place of CORE that exists (R50). -/
def HostWrite.inCore (cfg : Config) : HostWrite → Bool
  | .reg r _ => decide (r ≤ 5)
  | .ibuf i _ => decide (i < cfg.maxIn)
  | .obuf i _ => decide (i < cfg.maxOut)
  | .wbuf i _ => decide (i < cfg.maxW)
  | .nin _ _ | .nlen _ | .nprob _ => false

/-- The CORE part of the state (R20 classes 1 to 3). -/
def State.sameCore (s t : State) : Prop :=
  t = { s with
    nin := t.nin, nlen := t.nlen, nout := t.nout, nscheme := t.nscheme, nprob := t.nprob, nstatus := t.nstatus
    ndraws := t.ndraws, events := t.events }

/-- The noise unit's part of the state (R20 class 4, R161). -/
def State.sameNoise (s t : State) : Prop :=
  t.nin = s.nin ∧ t.nlen = s.nlen ∧ t.nout = s.nout ∧ t.nscheme = s.nscheme ∧ t.nprob = s.nprob ∧
    t.nstatus = s.nstatus ∧ t.ndraws = s.ndraws ∧ t.era = s.era ∧ t.cfg = s.cfg

end Sys2Proof.Machine
end

