-- ==== Sys2Proof/Certificates/Slice0/Obligations.lean ====
section
/-! DEFINITION. The statements for the provers. `coreInstr false (.known S)` is `ENC.S` and `coreInstr true (.known S)` is
`DEC.S`; `coreInstr _ .reserved` are the two reserved words. -/

open Sys2Proof Sys2Proof.Machine

/-! Command words (30_encoding.md) -/

/-- R78, R84, R85: every instruction has a command word that decodes to it, and every command word is that of one
instruction. -/
def Obligations.DecodeAndEncodeAgree : Prop :=
  (∀ i : Instr, decode (encode i) = i) ∧ (∀ c : Command, encode (decode c) = c)

/-- R78: the opcode map, row by row, from the spec's binary column; R85 and R72: the eight words of format N. -/
def Obligations.DecodeReadsTheOpcodeMap : Prop :=
  decode (.c 0b0000#4) = .encNrz ∧ decode (.c 0b0001#4) = .encNrzi ∧ decode (.c 0b0010#4) = .encAmi ∧
  decode (.c 0b0011#4) = .encMan ∧ decode (.c 0b0100#4) = .encDman ∧ decode (.c 0b0101#4) = .encBpm ∧
  decode (.c 0b0110#4) = .encBps ∧ decode (.c 0b0111#4) = .reservedEnc7 ∧
  decode (.c 0b1000#4) = .decNrz ∧ decode (.c 0b1001#4) = .decNrzi ∧ decode (.c 0b1010#4) = .decAmi ∧
  decode (.c 0b1011#4) = .decMan ∧ decode (.c 0b1100#4) = .decDman ∧ decode (.c 0b1101#4) = .decBpm ∧
  decode (.c 0b1110#4) = .decBps ∧ decode (.c 0b1111#4) = .reservedDec7 ∧
  decode (.n 0b000#3) = .noise (.known .nrz) ∧ decode (.n 0b001#3) = .noise (.known .nrzi) ∧
  decode (.n 0b010#3) = .noise (.known .ami) ∧ decode (.n 0b011#3) = .noise (.known .man) ∧
  decode (.n 0b100#3) = .noise (.known .dman) ∧ decode (.n 0b101#3) = .noise (.known .bpm) ∧
  decode (.n 0b110#3) = .noise (.known .bps) ∧ decode (.n 0b111#3) = .noise .reserved

/-! Steps -/

/-- R95: while a transaction is in progress, a move of the engine, which is also what happens when nothing else is about
to, is `exec` of the instruction that the latched command word decodes to. That this is one step, and that the engine
moves when no event is left, are the model's choices (assumptions 8 and 9). -/
def Obligations.EngineRunsTheLatchedCommand : Prop :=
  ∀ s : State, s.busy = true →
    (∀ rest, s.events = .engine :: rest → step s = exec (decode (.c s.lcmd)) { s with events := rest }) ∧
    (s.events = [] → step s = exec (decode (.c s.lcmd)) s)

/-- R85, R161: a host write of a format N word to the noise unit's command register puts it into `NSCHEME` and runs the
instruction it decodes to; host writes of `NIN`, `NLEN` and `NPROB` set the unit's inputs (assumptions 13 to 15; that
an element of `NIN` keeps the low 2 bits is assumption 19). -/
def Obligations.NoiseUnitTakesItsCommandAndInputs : Prop :=
  (∀ (s : State) (v : Nat) (rest : List Event), s.events = .noise v :: rest →
    step s = exec (decode (.n (BitVec.ofNat 3 v))) { s with events := rest, nscheme := BitVec.ofNat 3 v }) ∧
  (∀ (s : State) (w : HostWrite) (rest : List Event), s.cfg.hasNoiseUnit = true → s.events = .write w :: rest →
    (∀ i v, w = .nin i v → i < s.cfg.noiseCap →
      step s = .next { s with nin := s.nin.write i (BitVec.ofNat 2 v), events := rest }) ∧
    (∀ v, w = .nlen v → step s = .next { s with nlen := v, events := rest }) ∧
    (∀ p, w = .nprob p → step s = .next { s with nprob := p, events := rest }))

/-- A placed command word is run by the very next step: format C after the start of R91, format N after its register is
written. The model's own function (assumption 10). -/
def Obligations.PlacedWordRunsNext : Prop :=
  ∀ (s : State) (nbits w : Nat),
    (4 ≤ nbits → step (s.withFetchWord nbits w) =
      exec (decode (.c (BitVec.ofNat 4 w))) (s.start (BitVec.ofNat 4 w))) ∧
    (nbits = 3 → step (s.withFetchWord nbits w) =
      exec (decode (.n (BitVec.ofNat 3 w))) { s with nscheme := BitVec.ofNat 3 w })

/-! Life cycle and host access (40_dispatch.md, 70_reset_and_hazards.md) -/

/-- R91: a write of `CMD` while `BUSY` = 0 latches the command and the length, sets `BUSY`, gives the working registers
their starting values, and changes nothing else; while `BUSY` = 1 it does none of this. -/
def Obligations.CmdWriteStartsATransaction : Prop :=
  ∀ (s : State) (v : Nat) (rest : List Event), s.events = .write (.reg 0 v) :: rest →
    (s.busy = false → s.ilen ≤ s.cfg.maxIn → step s = .next
      { s with
        cmd := BitVec.ofNat 4 v, lcmd := BitVec.ofNat 4 v, n := s.ilen, busy := true
        cur := false, pol := .plus, prevEnd := false, prevBit := false, idx := 0, optr := 0, wptr := 0
        events := rest }) ∧
    (s.busy = true → step s = .next { s with events := rest })

/-- R30, U1: a start with `ILEN` > `MAX_IN`, and an operation of a scheme whose latched length is such a value, are
refused under that name. The second clause is the model's choice (assumption 11). -/
def Obligations.ReservedLengthIsRefused : Prop :=
  (∀ (s : State) (v : Nat) (rest : List Event), s.events = .write (.reg 0 v) :: rest → s.busy = false →
    s.cfg.maxIn < s.ilen → step s = .refused .ilenReserved) ∧
  (∀ (s : State) (dir : Bool) (S : Scheme), s.cfg.maxIn < s.n →
    exec (coreInstr dir (.known S)) s = .refused .ilenReserved)

/-- R216, R218: while `BUSY` = 1 no host write to a place of CORE changes anything. -/
def Obligations.BusyIgnoresHostWrites : Prop :=
  ∀ (s : State) (w : HostWrite) (rest : List Event), s.busy = true → w.inCore s.cfg = true →
    s.events = .write w :: rest → step s = .next { s with events := rest }

/-- R214, R86: what the host's writes do while `BUSY` = 0: one element of `IBUF`; `ILEN`, within its width; `CMD`, which
starts a transaction; and nothing for `STATUS`, `OLEN`, `PADCNT`, `WCNT`, `OBUF`, `WBUF`. That an element of `IBUF` keeps
the low 2 bits of what is written is the model's choice (assumption 19: R86 is about registers). -/
def Obligations.IdleHostWrites : Prop :=
  ∀ (s : State) (w : HostWrite) (rest : List Event), s.busy = false → s.events = .write w :: rest →
    (∀ i v, w = .ibuf i v → i < s.cfg.maxIn →
      step s = .next { s with ibuf := s.ibuf.write i (BitVec.ofNat 2 v), events := rest }) ∧
    (∀ v, w = .reg 1 v → step s = .next { s with ilen := v % 2 ^ s.cfg.lenW, events := rest }) ∧
    (∀ v, w = .reg 0 v → s.ilen ≤ s.cfg.maxIn →
      step s = .next ({ s with events := rest }.start (BitVec.ofNat 4 v))) ∧
    (∀ r v, w = .reg r v → 2 ≤ r → r ≤ 5 → step s = .next { s with events := rest }) ∧
    (∀ i v, w = .obuf i v → i < s.cfg.maxOut → step s = .next { s with events := rest }) ∧
    (∀ i v, w = .wbuf i v → i < s.cfg.maxW → step s = .next { s with events := rest })

/-- R50: a register number above 5 and an index beyond a buffer's capacity do not exist: a host write or read there is a
fault, and a read of `NOUT` there has no answer, which is the model's choice (assumptions 12 and 21); the capacity of
`NIN` and `NOUT` is a parameter of the model (assumption 14). -/
def Obligations.MissingPlacesFault : Prop :=
  ∀ s : State,
    (∀ (w : HostWrite) (rest : List Event), s.events = .write w :: rest →
      (∀ r v, w = .reg r v → 5 < r → step s = .fault .noSuchRegister) ∧
      (∀ i v, w = .ibuf i v → s.cfg.maxIn ≤ i → step s = .fault .noSuchIndex) ∧
      (∀ i v, w = .obuf i v → s.cfg.maxOut ≤ i → step s = .fault .noSuchIndex) ∧
      (∀ i v, w = .wbuf i v → s.cfg.maxW ≤ i → step s = .fault .noSuchIndex) ∧
      (∀ i v, w = .nin i v → s.cfg.hasNoiseUnit = true → s.cfg.noiseCap ≤ i → step s = .fault .noSuchIndex)) ∧
    (∀ r, 5 < r → hostReadReg s r = .error .noSuchRegister) ∧
    (∀ i, s.cfg.maxIn ≤ i → hostReadIbuf s i = .error .noSuchIndex) ∧
    (∀ i, s.cfg.maxOut ≤ i → hostReadObuf s i = .error .noSuchIndex) ∧
    (∀ i, s.cfg.maxW ≤ i → hostReadWbuf s i = .error .noSuchIndex) ∧
    (∀ i, s.cfg.noiseCap ≤ i → hostReadNout s i = none)

/-- R34, R55: an element of `IBUF` written while `BUSY` = 0 reads back as written, and every other element of every
buffer reads as before. That it reads back as the low 2 bits (assumption 19), and that an element with no specified
value reads as before (assumptions 3 and 4), are the model's choices. -/
def Obligations.IbufReadsWhatWasWritten : Prop :=
  ∀ (s : State) (i v : Nat) (rest : List Event), s.busy = false → i < s.cfg.maxIn →
    s.events = .write (.ibuf i v) :: rest → ∃ t, step s = .next t ∧
      hostReadIbuf t i = .ok (BitVec.ofNat 2 v) ∧ (∀ j, j ≠ i → hostReadIbuf t j = hostReadIbuf s j) ∧
      hostReadObuf t = hostReadObuf s ∧ hostReadWbuf t = hostReadWbuf s ∧ hostReadReg t = hostReadReg s

/-- R215, R28, R31, R76: while `BUSY` = 0 a read of a control register, and of an element of `IBUF`, `OBUF` or `WBUF` whose
value is specified, returns the stored value: `STATUS` is 2 * `ERR`, a record is kind * 2^`LEN_W` + val. R161: so does a
read of `NOUT`, whatever `BUSY` is. An element without a specified value answers something; what, is not stated. -/
def Obligations.HostReadsReturnStoredValues : Prop :=
  ∀ s : State,
    (s.busy = false →
      hostReadReg s 0 = .ok s.cmd.toNat ∧ hostReadReg s 1 = .ok s.ilen ∧
      (s.err = .noError → hostReadReg s 2 = .ok 0) ∧ (s.err = .invalidScheme → hostReadReg s 2 = .ok 2) ∧
      (s.err = .invalidBit → hostReadReg s 2 = .ok 4) ∧ (s.err = .invalidLevel → hostReadReg s 2 = .ok 6) ∧
      hostReadReg s 3 = .ok s.olen ∧ hostReadReg s 4 = .ok s.padcnt ∧ hostReadReg s 5 = .ok s.wcnt ∧
      (∀ i < s.cfg.maxIn, (∃ e, hostReadIbuf s i = .ok e) ∧
        ∀ e, s.ibuf.read i = some e → hostReadIbuf s i = .ok e) ∧
      (∀ i < s.cfg.maxOut, (∃ e, hostReadObuf s i = .ok e) ∧ ∀ e, s.obuf[i]? = some e → hostReadObuf s i = .ok e) ∧
      (∀ i < s.cfg.maxW, (∃ v, hostReadWbuf s i = .ok v ∧ v < 2 ^ (1 + s.cfg.lenW)) ∧
        ∀ w, s.wbuf[i]? = some w → w.val < 2 ^ s.cfg.lenW →
          hostReadWbuf s i = .ok ((if w.kind = .padding then 1 else 0) * 2 ^ s.cfg.lenW + w.val))) ∧
    (s.cfg.hasNoiseUnit = true → ∀ i < s.cfg.noiseCap, (∃ e, hostReadNout s i = some e) ∧
      ∀ e, s.nout[i]? = some e → hostReadNout s i = some e)

/-- R217: while `BUSY` = 1 a read of `STATUS` shows `BUSY` = 1 within the register's three bits, and reads of `CMD`,
`ILEN` and `IBUF` return the stored values. -/
def Obligations.BusyRegisterReads : Prop :=
  ∀ s : State, s.busy = true →
    (∃ v, hostReadReg s 2 = .ok v ∧ v % 2 = 1 ∧ v < 8) ∧ hostReadReg s 0 = .ok s.cmd.toNat ∧
    hostReadReg s 1 = .ok s.ilen ∧ (∀ i < s.cfg.maxIn, hostReadIbuf s i = .ok (s.readIbuf i))

/-- R210: reset, in any state, gives the idle state with all control and status registers 0, and starts no transaction;
the buffers hold nothing specified, which the model writes as empty lists (assumption 18). R39: the same registers at
power-on; the working registers, which R39 leaves unspecified, are not stated. -/
def Obligations.ResetGivesTheIdleState : Prop :=
  (∀ (s : State) (rest : List Event), s.events = .reset :: rest → ∃ t, step s = .next t ∧
    t.busy = false ∧ t.cmd = 0 ∧ t.ilen = 0 ∧ t.err = .noError ∧ t.olen = 0 ∧ t.padcnt = 0 ∧ t.wcnt = 0 ∧
    t.ibuf = [] ∧ t.obuf = [] ∧ t.wbuf = [] ∧ t.cfg = s.cfg ∧ t.events = rest) ∧
  State.reset.busy = false ∧ State.reset.cmd = 0 ∧ State.reset.ilen = 0 ∧ State.reset.err = .noError ∧
  State.reset.olen = 0 ∧ State.reset.padcnt = 0 ∧ State.reset.wcnt = 0

/-- R200: idling changes nothing, and only a host write of `CMD` leaves the idle state. -/
def Obligations.OnlyACmdWriteLeavesIdle : Prop :=
  (∀ s : State, s.busy = false → s.events = [] → step s = .next s) ∧
  (∀ s t : State, s.busy = false → step s = .next t → t.busy = true →
    ∃ v rest, s.events = .write (.reg 0 v) :: rest)

/-! Errors (60_exceptions.md) -/

/-- R186, R181, R93: error entry is the five assignments and nothing else, for the reserved words on any input and for an
encode or a decode with an illegal element. -/
def Obligations.ErrorEntryChangesFiveFields : Prop :=
  (∀ (s : State) (dir : Bool), exec (coreInstr dir .reserved) s = .next
    { s with err := .invalidScheme, olen := 0, padcnt := 0, wcnt := 0, busy := false }) ∧
  (∀ (s : State) (S : Scheme), s.n ≤ s.cfg.maxIn → ¬ s.BitsLegal → exec (coreInstr false (.known S)) s = .next
    { s with err := .invalidBit, olen := 0, padcnt := 0, wcnt := 0, busy := false }) ∧
  (∀ (s : State) (S : Scheme), s.n ≤ s.cfg.maxIn → ¬ s.LevelsLegal S → exec (coreInstr true (.known S)) s = .next
    { s with err := .invalidLevel, olen := 0, padcnt := 0, wcnt := 0, busy := false })

/-- R181: `InvalidSchemeError` is raised by both reserved words in every state, and by no other operation of CORE. -/
def Obligations.OnlyReservedWordsRaiseSchemeError : Prop :=
  (∀ (s : State) (dir : Bool), ∃ t, exec (coreInstr dir .reserved) s = .next t ∧ t.err = .invalidScheme) ∧
  (∀ (s t : State) (dir : Bool) (S : Scheme), exec (coreInstr dir (.known S)) s = .next t → t.err ≠ .invalidScheme)

/-- R182: `InvalidBitError` is raised by an encode exactly when some `IN(i)`, 0 <= i < n, is -1 or -2 (so never for
n = 0), and by no decode. -/
def Obligations.InvalidBitExactlyOnIllegalBits : Prop :=
  ∀ (s : State) (S : Scheme), s.n ≤ s.cfg.maxIn →
    (∃ t, exec (coreInstr false (.known S)) s = .next t ∧
      (t.err = .invalidBit ↔ ∃ i < s.n, s.input i = -1 ∨ s.input i = -2)) ∧
    (∃ t, exec (coreInstr true (.known S)) s = .next t ∧ t.err ≠ .invalidBit)

/-- R183: `InvalidLevelError` is raised by a decode exactly when some `IN(i)`, 0 <= i < n, is outside the alphabet: -1 or
-2 for the six binary schemes, -2 for AMI (so never for n = 0), and by no encode. -/
def Obligations.InvalidLevelExactlyOnIllegalLevels : Prop :=
  ∀ (s : State) (S : Scheme), s.n ≤ s.cfg.maxIn →
    (∃ t, exec (coreInstr true (.known S)) s = .next t ∧
      (t.err = .invalidLevel ↔ ∃ i < s.n, s.input i = -2 ∨ (S ≠ .ami ∧ s.input i = -1))) ∧
    (∃ t, exec (coreInstr false (.known S)) s = .next t ∧ t.err ≠ .invalidLevel)

/-- R187: at most one error, the scheme error first, and never an error together with a warning. -/
def Obligations.ErrorPriority : Prop :=
  ∀ (s : State) (dir : Bool) (sid : SchemeId), s.n ≤ s.cfg.maxIn →
    ∃ t, exec (coreInstr dir sid) s = .next t ∧
      (sid = .reserved → t.err = .invalidScheme) ∧
      (∀ S, sid = .known S → dir = false → t.err = if s.BitsLegal then .noError else .invalidBit) ∧
      (∀ S, sid = .known S → dir = true → t.err = if s.LevelsLegal S then .noError else .invalidLevel) ∧
      (t.err ≠ .noError → t.wcnt = 0 ∧ t.olen = 0 ∧ t.padcnt = 0)

/-! The encoders (41_encode.md): the whole next state -/

/-- R111. -/
def Obligations.EncNrzDelivers : Prop :=
  ∀ s : State, s.Started → s.BitsLegal →
    exec .encNrz s = .next { s.delivered s.inputSeq 0 [] with idx := s.n }

/-- R112: L[i] = c_i mod 2; `cur` ends as the level of the last symbol. -/
def Obligations.EncNrziDelivers : Prop :=
  ∀ s : State, s.Started → s.BitsLegal → exec .encNrzi s = .next
    { s.delivered ((List.range s.n).map fun i => parity (onesUpTo s.inputSeq i)) 0 [] with
      idx := s.n, cur := decide (s.inputSeq.count 1 % 2 = 1) }

/-- R113: L[i] = 0 if B[i] = 0, else (-1)^(c_i); `pol` is flipped once by every 1-bit. -/
def Obligations.EncAmiDelivers : Prop :=
  ∀ s : State, s.Started → s.BitsLegal → exec .encAmi s = .next
    { s.delivered ((List.range s.n).map fun i =>
        if s.input i = 0 then 0 else (-1) ^ onesUpTo s.inputSeq i) 0 [] with
      idx := s.n, pol := if s.inputSeq.count 1 % 2 = 1 then .minus else .plus }

/-- R114: L[2i] = B[i], L[2i+1] = not(B[i]). -/
def Obligations.EncManDelivers : Prop :=
  ∀ s : State, s.Started → s.BitsLegal → exec .encMan s = .next
    { s.delivered ((List.range s.n).flatMap fun i => [s.input i, 1 - s.input i]) 0 [] with idx := s.n }

/-- R115: L[2i] = (c_i + i) mod 2, L[2i+1] = (c_i + i + 1) mod 2; every 0-bit changes `cur` once, a 1-bit leaves it. -/
def Obligations.EncDmanDelivers : Prop :=
  ∀ s : State, s.Started → s.BitsLegal → exec .encDman s = .next
    { s.delivered ((List.range s.n).flatMap fun i =>
        [parity (onesUpTo s.inputSeq i + i), parity (onesUpTo s.inputSeq i + i + 1)]) 0 [] with
      idx := s.n, cur := decide (s.inputSeq.count 0 % 2 = 1) }

/-- R116: the same transitions as R115. -/
def Obligations.EncBpmDelivers : Prop :=
  ∀ s : State, s.Started → s.BitsLegal → exec .encBpm s = .next
    { s.delivered ((List.range s.n).flatMap fun i =>
        [parity (onesUpTo s.inputSeq i + i), parity (onesUpTo s.inputSeq i + i + 1)]) 0 [] with
      idx := s.n, cur := decide (s.inputSeq.count 0 % 2 = 1) }

/-- R117: L[2i] = (c_i + 1) mod 2, L[2i+1] = c_i mod 2, which is `ENC_BPM` of the complemented bits. -/
def Obligations.EncBpsDelivers : Prop :=
  ∀ s : State, s.Started → s.BitsLegal → exec .encBps s = .next
    { s.delivered ((List.range s.n).flatMap fun i =>
        [parity (onesUpTo s.inputSeq i + 1), parity (onesUpTo s.inputSeq i)]) 0 [] with
      idx := s.n, cur := decide (s.inputSeq.count 1 % 2 = 1) } ∧
    encBpsFn s.inputSeq = encBpmFn (s.inputSeq.map fun v => 1 - v)

/-! The decoders (42_decode.md): the whole next state -/

/-- R131. -/
def Obligations.DecNrzDelivers : Prop :=
  ∀ s : State, s.Started → s.LevelsLegal .nrz →
    exec .decNrz s = .next { s.decoded s.inputSeq [] with idx := s.n }

/-- R132: R[j] = b2i(L[j+1] != L[j]), j = 0 .. n-2; the first sample gives no bit. -/
def Obligations.DecNrziDelivers : Prop :=
  ∀ s : State, s.Started → s.LevelsLegal .nrzi → exec .decNrzi s = .next
    { s.decoded ((List.range (s.n - 1)).map fun j => if s.input (j + 1) = s.input j then 0 else 1) [] with
      idx := s.n }

/-- R133: the sign is discarded. -/
def Obligations.DecAmiDelivers : Prop :=
  ∀ s : State, s.Started → s.LevelsLegal .ami → exec .decAmi s = .next
    { s.decoded ((List.range s.n).map fun i => if s.input i = 0 then 0 else 1) [] with idx := s.n }

/-- R134: R satisfies the rule's three lines, with R[-1] = 0, and `IT(k)` is given exactly for the pairs (0,0) and (1,1),
in increasing k; `prev_bit` ends as the last bit. -/
def Obligations.DecManDelivers : Prop :=
  ∀ s : State, s.Started → s.LevelsLegal .man → ∃ R : List Int, R.length = s.n / 2 ∧
    (∀ k < s.n / 2,
      (s.input (2 * k) = 0 → s.input (2 * k + 1) = 1 → R.getD k 0 = 0) ∧
      (s.input (2 * k) = 1 → s.input (2 * k + 1) = 0 → R.getD k 0 = 1) ∧
      (s.input (2 * k) = s.input (2 * k + 1) → R.getD k 0 = if k = 0 then 0 else R.getD (k - 1) 0)) ∧
    exec .decMan s = .next
      { s.decoded R ((List.range (s.n / 2)).filter fun k => s.input (2 * k) == s.input (2 * k + 1)) with
        idx := 2 * (s.n / 2), prevBit := R.getLast?.getD 0 == 1 }

/-- R135: R[k] = b2i(L[2k] == L[2k+2]), k = 0 .. M-2; second levels are not compared. -/
def Obligations.DecDmanDelivers : Prop :=
  ∀ s : State, s.Started → s.LevelsLegal .dman → exec .decDman s = .next
    { s.decoded ((List.range (s.n / 2 - 1)).map fun k =>
        if s.input (2 * k) = s.input (2 * k + 2) then 1 else 0) [] with
      idx := 2 * (s.n / 2 - 1) }

/-- R136: R[k] = b2i(L[2k] != E[k]), E[0] = 0, E[k] = L[2k-1]; `prev_end` ends as the last symbol's second level. -/
def Obligations.DecBpmDelivers : Prop :=
  ∀ s : State, s.Started → s.LevelsLegal .bpm → exec .decBpm s = .next
    { s.decoded ((List.range (s.n / 2)).map fun k =>
        if s.input (2 * k) = (if k = 0 then 0 else s.input (2 * k - 1)) then 0 else 1) [] with
      idx := 2 * (s.n / 2), prevEnd := decide (2 ≤ s.n ∧ s.input (2 * (s.n / 2) - 1) = 1) }

/-- R137: R[k] = b2i(L[2k] == E[k]) with E as in R136. -/
def Obligations.DecBpsDelivers : Prop :=
  ∀ s : State, s.Started → s.LevelsLegal .bps → exec .decBps s = .next
    { s.decoded ((List.range (s.n / 2)).map fun k =>
        if s.input (2 * k) = (if k = 0 then 0 else s.input (2 * k - 1)) then 1 else 0) [] with
      idx := 2 * (s.n / 2), prevEnd := decide (2 ≤ s.n ∧ s.input (2 * (s.n / 2) - 1) = 1) }

/-! The noise unit (43_noise_aux.md). The mask is a free value: the statements hold for every mask. -/

/-- R164, R163: on levels of the scheme's alphabet `NOISE` replaces the flipped levels; on any other level it is refused
under that name (U5). -/
def Obligations.NoiseFlipsUnderTheMask : Prop :=
  ∀ (s : State) (S : Scheme), s.cfg.hasNoiseUnit = true → 0 ≤ s.nprob → s.nprob ≤ 1 → s.nlen ≤ s.cfg.noiseCap →
    ((∀ i < s.nlen, s.noiseInput i ∈ levelAlphabet S) → exec (.noise (.known S)) s = .next
      { s with
        nout := (List.range s.nlen).map fun i => enc2
          (if flipMask s.nprob s.ndraws i = false then s.noiseInput i
            else if S ≠ .ami then 1 - s.noiseInput i
            else if s.noiseInput i = 1 ∨ s.noiseInput i = -1 then 0
            else 1)
        nstatus := .noError, ndraws := s.ndraws + 1 }) ∧
    ((∃ i < s.nlen, s.noiseInput i ∉ levelAlphabet S) →
      exec (.noise (.known S)) s = .refused .noiseLevelUnspecified)

/-- R165: at p = 0 the output is the input; at p = 1 every level is flipped: a binary sequence is complemented, and an
AMI sequence maps every mark to 0 and every 0 to +1. -/
def Obligations.NoiseAtTheExtremes : Prop :=
  ∀ (s t : State) (S : Scheme), exec (.noise (.known S)) s = .next t →
    (s.nprob = 0 → ∀ i < s.nlen, sext2 (t.readNout i) = s.noiseInput i) ∧
    (s.nprob = 1 → ∀ i < s.nlen, sext2 (t.readNout i) =
      if S = .ami then (if s.noiseInput i = 0 then 1 else 0) else 1 - s.noiseInput i)

/-- R167, R168: a reserved scheme id first, then a probability outside [0, 1], give their status code and nothing
else; the codes the host reads. -/
def Obligations.NoiseErrors : Prop :=
  ∀ s : State, s.cfg.hasNoiseUnit = true →
    exec (.noise .reserved) s = .next { s with nstatus := .invalidScheme } ∧
    (∀ S, s.nprob < 0 ∨ 1 < s.nprob → exec (.noise (.known S)) s = .next { s with nstatus := .invalidProbability }) ∧
    (s.nstatus = .noError → hostReadNstatus s = some 0) ∧ (s.nstatus = .invalidScheme → hostReadNstatus s = some 1) ∧
    (s.nstatus = .invalidProbability → hostReadNstatus s = some 2)

/-- R85, R161: on an instance without the unit `NOISE` is refused by name; so is an `NLEN` above the capacity, which the
spec leaves open (the model's choice, assumption 14). -/
def Obligations.NoiseStops : Prop :=
  (∀ (s : State) (sid : SchemeId), s.cfg.hasNoiseUnit = false →
    exec (.noise sid) s = .refused .noiseUnitAbsent) ∧
  (∀ (s : State) (S : Scheme), s.cfg.hasNoiseUnit = true → 0 ≤ s.nprob → s.nprob ≤ 1 → s.cfg.noiseCap < s.nlen →
    exec (.noise (.known S)) s = .refused .nlenReserved)

/-- R166: the output stays inside the scheme's alphabet. -/
def Obligations.NoiseStaysInTheAlphabet : Prop :=
  ∀ (s t : State) (S : Scheme), exec (.noise (.known S)) s = .next t → t.nstatus = .noError →
    t.nout.length = s.nlen ∧ ∀ e ∈ t.nout, sext2 e ∈ levelAlphabet S

/-- R160: `NOISE` neither changes nor depends on CORE, and no operation of CORE changes or depends on the noise unit. -/
def Obligations.NoiseAndCoreAreSeparate : Prop :=
  (∀ (s t : State) (sid : SchemeId), exec (.noise sid) s = .next t → s.sameCore t) ∧
  (∀ (s t : State) (dir : Bool) (sid : SchemeId), exec (coreInstr dir sid) s = .next t → s.sameNoise t) ∧
  (∀ (s s' t : State) (dir : Bool) (sid : SchemeId), s.sameCore s' → exec (coreInstr dir sid) s = .next t →
    ∃ t', exec (coreInstr dir sid) s' = .next t' ∧ t.sameCore t') ∧
  (∀ (s s' t : State) (sid : SchemeId), s.sameNoise s' → exec (.noise sid) s = .next t →
    ∃ t', exec (.noise sid) s' = .next t' ∧ t.sameNoise t')

/-! Laws of the operations -/

/-- R99: output length, padding count and warning count of every operation. -/
def Obligations.ResultCounts : Prop :=
  ∀ (s : State) (S : Scheme), s.Started →
    (s.BitsLegal → ∃ t, exec (coreInstr false (.known S)) s = .next t ∧
      t.olen = levelsPerBit S * s.n ∧ t.padcnt = 0 ∧ t.wcnt = 0) ∧
    (s.LevelsLegal S → ∃ t, exec (coreInstr true (.known S)) s = .next t ∧
      t.padcnt = (8 - rawCount s.n S % 8) % 8 ∧ t.olen = rawCount s.n S + t.padcnt ∧
      t.wcnt = (if S = .man then ((List.range (s.n / 2)).filter fun k =>
        s.input (2 * k) == s.input (2 * k + 1)).length else 0) + (if t.padcnt = 0 then 0 else 1))

/-- R119: `ENC.DMAN` and `ENC.BPM` compute the same. -/
def Obligations.DmanAndBpmEncodeAlike : Prop := ∀ s : State, exec .encDman s = exec .encBpm s

/-- R120: every encoder is causal: the output for the first j bits is the first j * lpb elements of the output. -/
def Obligations.EncodersAreCausal : Prop :=
  ∀ (S : Scheme) (j : Nat) (s s' t : State), s.Started → s'.Started → s.BitsLegal →
    s'.inputSeq = s.inputSeq.take j → exec (coreInstr false (.known S)) s = .next t →
    ∃ t', exec (coreInstr false (.known S)) s' = .next t' ∧ t'.output = t.output.take (j * levelsPerBit S)

/-- R121: every symbol of a 2-level encoder has a transition at its mid-point. -/
def Obligations.EveryEncodedSymbolHasAMidpointTransition : Prop :=
  ∀ (S : Scheme) (s : State), levelsPerBit S = 2 → s.Started → s.BitsLegal →
    ∃ t, exec (coreInstr false (.known S)) s = .next t ∧ t.olen = 2 * s.n ∧
      ∀ i < s.n, sext2 (t.readObuf (2 * i + 1)) = 1 - sext2 (t.readObuf (2 * i))

/-- R149: decoding what an encoder put out gives the bits back, all of them but for the first with NRZI and Differential
Manchester, with no warning besides `PAD`, followed by the padding zeros. -/
def Obligations.RoundTripRecoversTheBits : Prop :=
  ∀ (S : Scheme) (s : State), s.Started → s.BitsLegal →
    ∃ t, exec (coreInstr false (.known S)) s = .next t ∧
      ∀ s', s'.Started → s'.inputSeq = t.output →
        ∃ u, exec (coreInstr true (.known S)) s' = .next u ∧ u.err = .noError ∧
          u.payload = (if S = .nrzi ∨ S = .dman then s.inputSeq.tail else s.inputSeq) ∧
          u.output = u.payload ++ List.replicate ((8 - u.payload.length % 8) % 8) 0 ∧
          (∀ w ∈ u.warnings, w.kind = .padding)

/-- R150 (a): what `ENC.DMAN` puts out, `DEC.BPM` decodes to all of the bits; and `DEC.DMAN` decodes what `ENC.BPM` puts
out to all but the first. -/
def Obligations.DmanAndBpmCrossDecode : Prop :=
  ∀ s : State, s.Started → s.BitsLegal → ∃ t, exec .encDman s = .next t ∧ exec .encBpm s = .next t ∧
    ∀ s', s'.Started → s'.inputSeq = t.output →
      (∃ u, exec .decBpm s' = .next u ∧ u.payload = s.inputSeq) ∧
      (∃ u, exec .decDman s' = .next u ∧ u.payload = s.inputSeq.tail)

/-- R150 (c), R137: the payload of `DEC.BPS` is the complement of that of `DEC.BPM`. -/
def Obligations.BpsComplementsBpm : Prop :=
  ∀ s : State, s.Started → s.LevelsLegal .bpm → ∃ t u, exec .decBpm s = .next t ∧ exec .decBps s = .next u ∧
    u.payload = t.payload.map fun v => 1 - v

/-- R150 (b): on symbols that all have a mid-point transition, `DEC.DMAN` gives the tail of what `DEC.BPM` gives. -/
def Obligations.DmanIsTheTailOfBpm : Prop :=
  ∀ s : State, s.Started → s.LevelsLegal .bpm →
    (∀ k < s.n / 2, s.input (2 * k + 1) = 1 - s.input (2 * k)) →
    ∃ t u, exec .decBpm s = .next t ∧ exec .decDman s = .next u ∧ u.payload = t.payload.tail

/-- R138: an unpaired last level of a legal input to a 2-level decoder gives no bit, no warning and no error: the results
are those of the input without it. -/
def Obligations.OddTrailingLevelIsIgnored : Prop :=
  ∀ (S : Scheme) (s s' : State), levelsPerBit S = 2 → s.Started → s'.Started → s.n % 2 = 1 → s.LevelsLegal S →
    s'.inputSeq = s.inputSeq.dropLast →
    ∃ t t', exec (coreInstr true (.known S)) s = .next t ∧ exec (coreInstr true (.known S)) s' = .next t' ∧
      t.results = t'.results

/-- R146, R147: every successful decode delivers its raw bits padded with zeros to the smallest multiple of 8, and
reports the padding in `PADCNT` and in one `PAD` record, the last, exactly when there is any; no encode pads. -/
def Obligations.PaddingIsCompleteAndReported : Prop :=
  ∀ (S : Scheme) (s : State), s.Started →
    (s.LevelsLegal S → ∃ t, exec (coreInstr true (.known S)) s = .next t ∧
      t.olen % 8 = 0 ∧ t.padcnt < 8 ∧ t.olen = rawCount s.n S + t.padcnt ∧
      (∀ i, rawCount s.n S ≤ i → i < t.olen → t.readObuf i = 0) ∧
      t.payload = rawFn S s.inputSeq ∧
      ∃ its : List Warning, (∀ w ∈ its, w.kind = .invalidTransition) ∧
        t.warnings = its ++ if t.padcnt = 0 then [] else [{ kind := .padding, val := t.padcnt }]) ∧
    (s.BitsLegal → ∃ t, exec (coreInstr false (.known S)) s = .next t ∧
      t.olen = levelsPerBit S * s.n ∧ t.padcnt = 0 ∧ t.warnings = [])

/-- R140: only `DEC.MAN` produces an `INVALID_TRANSITION` warning. -/
def Obligations.OnlyManchesterDetectsInvalidTransitions : Prop :=
  ∀ (S : Scheme) (s : State), S ≠ .man → s.Started → s.LevelsLegal S →
    ∃ t, exec (coreInstr true (.known S)) s = .next t ∧ ∀ w ∈ t.warnings, w.kind = .padding

/-- R92: the results of a transaction are a function of the command and of the input sequence: two instances that agree
on these agree on the results, whatever else differs. -/
def Obligations.ResultsDependOnTheInputAlone : Prop :=
  ∀ (dir : Bool) (sid : SchemeId) (s s' t t' : State), s.Started → s'.Started → s.inputSeq = s'.inputSeq →
    exec (coreInstr dir sid) s = .next t → exec (coreInstr dir sid) s' = .next t' → t.results = t'.results

/-- R17, R97, R186: from any idle state a host write of `CMD` followed by a move of the engine ends the transaction, with
the results that the functions of R111 to R117 and R130 to R137 give for the command and the loaded sequence, and
with `IBUF` and `ILEN` unchanged. That it takes two steps is the model's choice (assumption 8: the engine's run is
one). -/
def Obligations.TransactionComputesTheCodec : Prop :=
  ∀ (s : State) (v : Nat) (rest : List Event), s.busy = false → s.ilen ≤ s.cfg.maxIn →
    s.events = .write (.reg 0 v) :: .engine :: rest →
    ∃ t, runSteps 2 s = .next t ∧ t.busy = false ∧
      t.results = codec (dirField (BitVec.ofNat 4 v)) (SchemeId.ofWord (schemeField (BitVec.ofNat 4 v)))
        s.loadedSeq ∧
      t.cmd = BitVec.ofNat 4 v ∧ t.ilen = s.ilen ∧ t.ibuf = s.ibuf ∧ t.readIbuf = s.readIbuf ∧ t.events = rest

/-! Frames and invariants -/

/-- R64: no operation writes `IBUF`, `ILEN` or `CMD`; every element of `IBUF` reads as before. -/
def Obligations.InputIsImmutable : Prop :=
  ∀ (i : Instr) (s t : State), exec i s = .next t →
    t.ibuf = s.ibuf ∧ t.ilen = s.ilen ∧ t.cmd = s.cmd ∧ ∀ j, hostReadIbuf t j = hostReadIbuf s j

/-- R21: an operation changes no working register but the ones it uses: `cur` by four encoders, `pol` by `ENC.AMI`,
`prev_end` by `DEC.BPM` and `DEC.BPS`, `prev_bit` by `DEC.MAN`; none changes `n`, `lcmd`, the parameters or what is about
to happen; and an operation that ends in an error changes no element of `OBUF` and no record of `WBUF`. -/
def Obligations.FrameOfEveryOperation : Prop :=
  ∀ (i : Instr) (s t : State), exec i s = .next t →
    (i ≠ .encNrzi → i ≠ .encDman → i ≠ .encBpm → i ≠ .encBps → t.cur = s.cur) ∧
    (i ≠ .encAmi → t.pol = s.pol) ∧ (i ≠ .decBpm → i ≠ .decBps → t.prevEnd = s.prevEnd) ∧
    (i ≠ .decMan → t.prevBit = s.prevBit) ∧ t.n = s.n ∧ t.lcmd = s.lcmd ∧ t.cfg = s.cfg ∧ t.events = s.events ∧
    t.era = s.era ∧
    (t.err ≠ .noError → t.readObuf = s.readObuf ∧ t.readWbuf = s.readWbuf ∧ t.idx = s.idx ∧ t.optr = s.optr ∧
      t.wptr = s.wptr ∧ t.cur = s.cur ∧ t.pol = s.pol ∧ t.prevEnd = s.prevEnd ∧ t.prevBit = s.prevBit)

/-- R75: the engine only ever writes `00`, `01` and, from `ENC.AMI` alone, `11` to `OBUF`. -/
def Obligations.OnlyAmiEncodingWritesMinusOne : Prop :=
  ∀ (dir : Bool) (S : Scheme) (s : State), s.Started → (dir = false → s.BitsLegal) →
    (dir = true → s.LevelsLegal S) → ∃ t, exec (coreInstr dir (.known S)) s = .next t ∧
      ∀ e ∈ t.obuf, e = 0b00#2 ∨ e = 0b01#2 ∨ (dir = false ∧ S = .ami ∧ e = 0b11#2)

/-- R222, R191, R98: a started transaction ends, and no write of the host to CORE can keep it from ending. -/
def Obligations.EveryTransactionEnds : Prop :=
  ∀ (s : State) (ws : List HostWrite), s.Started → (∀ w ∈ ws, w.inCore s.cfg = true) →
    s.events = ws.map .write →
    ∃ t, runSteps (ws.length + 1) s = .next t ∧ t.busy = false ∧ t.cmd = s.cmd ∧ t.ibuf = s.ibuf

/-- The parameters of an instance never change (R37; that State holds them is the model's choice, assumption 7). -/
def Obligations.ParametersNeverChange : Prop := ∀ s t : State, step s = .next t → t.cfg = s.cfg

/-- The invariant: canonical host buffers, lengths within the capacities of R7, `PADCNT` below 8, no output after an
error, no pattern `10` in the output, and, while `BUSY` = 1, what the start latched. Every step keeps it. -/
def Obligations.EveryStepKeepsTheInvariant : Prop := ∀ s t : State, s.Inv → step s = .next t → t.Inv

/-- The invariant holds at power-on of every instance, whatever is about to happen to it. -/
def Obligations.PowerOnMeetsTheInvariant : Prop :=
  State.reset.Inv ∧ ∀ (cfg : Config) (events : List Event), cfg.Ok → (State.power cfg events).Inv
end

