-- ==== Sys2Proof/Laws/Memory.lean ====
section
/-! SUPPORT. The laws of a host-writable buffer: read after write, and that the canonical form is kept. -/

namespace Sys2Proof

theorem Memory.read_write_same (m : Memory) (i : Nat) (v : Elem) : Memory.read (Memory.write m i v) i = some v := by
  induction m with
  | nil => simp [Memory.write, Memory.read]
  | cons p m ih =>
    obtain ⟨j, e⟩ := p
    by_cases h1 : i < j
    · simp [Memory.write, Memory.read, h1]
    · by_cases h2 : i = j
      · simp [Memory.write, Memory.read, h2]
      · simp [Memory.write, Memory.read, h1, h2, ih]

theorem Memory.read_write_other (m : Memory) {i j : Nat} (v : Elem) (h : j ≠ i) :
    Memory.read (Memory.write m i v) j = Memory.read m j := by
  induction m with
  | nil => simp [Memory.write, Memory.read, h]
  | cons p m ih =>
    obtain ⟨k, e⟩ := p
    by_cases h1 : i < k
    · simp [Memory.write, Memory.read, h1, h]
    · by_cases h2 : i = k
      · subst h2; simp [Memory.write, Memory.read, h]
      · simp [Memory.write, Memory.read, h1, h2, ih]

/-- Every entry of the written buffer is the new one or an old one. -/
theorem Memory.mem_write {m : Memory} {i : Nat} {v : Elem} {p : Nat × Elem} (h : p ∈ Memory.write m i v) :
    p = (i, v) ∨ p ∈ m := by
  induction m with
  | nil => simpa [Memory.write] using h
  | cons q m ih =>
    obtain ⟨k, e⟩ := q
    simp only [Memory.write] at h
    split at h
    · simpa using h
    · split at h
      · rcases List.mem_cons.1 h with h | h
        · exact .inl h
        · exact .inr (List.mem_cons_of_mem _ h)
      · rcases List.mem_cons.1 h with h | h
        · exact .inr (h ▸ List.mem_cons_self)
        · exact (ih h).imp_right (List.mem_cons_of_mem _)

theorem Memory.wf_nil (cap : Nat) : Memory.wf cap [] := by simp [Memory.wf]

/-- A write within the capacity keeps the canonical form. -/
theorem Memory.wf_write {cap : Nat} {m : Memory} {i : Nat} (v : Elem) (hm : Memory.wf cap m) (hi : i < cap) :
    Memory.wf cap (Memory.write m i v) := by
  refine ⟨?_, fun p hp => ?_⟩
  · have hr := hm.1
    clear hm
    induction m with
    | nil => simp [Memory.write]
    | cons q m ih =>
      obtain ⟨k, e⟩ := q
      obtain ⟨hk, hm⟩ := List.pairwise_cons.1 hr
      simp only [Memory.write]
      split
      · refine List.pairwise_cons.2 ⟨fun p hp => ?_, hr⟩
        rcases List.mem_cons.1 hp with rfl | hp
        · assumption
        · exact Nat.lt_trans ‹_› (hk p hp)
      · split
        · rename_i h2; subst h2
          exact List.pairwise_cons.2 ⟨hk, hm⟩
        · refine List.pairwise_cons.2 ⟨fun p hp => ?_, ih hm⟩
          rcases Memory.mem_write hp with rfl | hp
          · show k < i; omega
          · exact hk p hp
  · rcases Memory.mem_write hp with rfl | hp
    · exact hi
    · exact hm.2 p hp

/-- An index below every listed one is not listed. -/
theorem Memory.read_eq_none {m : Memory} {i : Nat} (h : ∀ p ∈ m, i < p.1) : Memory.read m i = none := by
  induction m with
  | nil => rfl
  | cons q m ih =>
    obtain ⟨k, e⟩ := q
    have hk : i < k := h (k, e) List.mem_cons_self
    simp [Memory.read, Nat.ne_of_lt hk, ih fun p hp => h p (List.mem_cons_of_mem _ hp)]

/-- Two buffers in canonical form with the same contents are the same list. -/
theorem Memory.ext_of_read {cap : Nat} {m m' : Memory} (hm : Memory.wf cap m) (hm' : Memory.wf cap m')
    (h : ∀ i, Memory.read m i = Memory.read m' i) : m = m' := by
  replace hm := hm.1
  replace hm' := hm'.1
  induction m generalizing m' with
  | nil =>
    cases m' with
    | nil => rfl
    | cons q m' => simpa [Memory.read] using h q.1
  | cons p m ih =>
    cases m' with
    | nil => simpa [Memory.read] using h p.1
    | cons q m' =>
      obtain ⟨j, e⟩ := p
      obtain ⟨k, f⟩ := q
      obtain ⟨hj, ht⟩ := List.pairwise_cons.1 hm
      obtain ⟨hk, ht'⟩ := List.pairwise_cons.1 hm'
      have hjk : j = k := by
        rcases Nat.lt_trichotomy j k with hlt | heq | hgt
        · have := h j
          rw [Memory.read_eq_none (m := (k, f) :: m')] at this
          · simp [Memory.read] at this
          · intro p hp
            rcases List.mem_cons.1 hp with rfl | hp
            · exact hlt
            · exact Nat.lt_trans hlt (hk p hp)
        · exact heq
        · have := h k
          rw [Memory.read_eq_none (m := (j, e) :: m)] at this
          · simp [Memory.read] at this
          · intro p hp
            rcases List.mem_cons.1 hp with rfl | hp
            · exact hgt
            · exact Nat.lt_trans hgt (hj p hp)
      subst hjk
      have he : e = f := by simpa [Memory.read] using h j
      subst he
      refine congrArg _ (ih (fun i => ?_) ht ht')
      by_cases hi : i = j
      · subst hi
        rw [Memory.read_eq_none hj, Memory.read_eq_none hk]
      · simpa [Memory.read, hi] using h i

end Sys2Proof

namespace Sys2Proof.Machine

/-- At reset both host-written buffers are in canonical form. -/
theorem reset_memory_wf : Memory.wf State.reset.cfg.maxIn State.reset.ibuf ∧
    Memory.wf State.reset.cfg.noiseCap State.reset.nin := ⟨Memory.wf_nil _, Memory.wf_nil _⟩

end Sys2Proof.Machine
end

