-- ==== Sys2Proof/Laws/State.lean ====
section
/-! SUPPORT. What each update of the state does to every field, one conjunct a field (each is a simp lemma of its own),
and that the reads depend only on the fields they name. -/

namespace Sys2Proof.Machine

variable (s : State)

@[simp] theorem State.emit_fields (v : Int) :
    (s.emit v).cfg = s.cfg ∧ (s.emit v).cur = s.cur ∧ (s.emit v).pol = s.pol ∧
    (s.emit v).prevEnd = s.prevEnd ∧ (s.emit v).prevBit = s.prevBit ∧ (s.emit v).idx = s.idx ∧
    (s.emit v).optr = s.optr + 1 ∧ (s.emit v).wptr = s.wptr ∧ (s.emit v).n = s.n ∧
    (s.emit v).lcmd = s.lcmd ∧ (s.emit v).cmd = s.cmd ∧ (s.emit v).ilen = s.ilen ∧
    (s.emit v).busy = s.busy ∧ (s.emit v).err = s.err ∧ (s.emit v).olen = s.olen ∧
    (s.emit v).padcnt = s.padcnt ∧ (s.emit v).wcnt = s.wcnt ∧ (s.emit v).ibuf = s.ibuf ∧
    (s.emit v).obuf = s.obuf.take s.optr ++ [enc2 v] ∧ (s.emit v).wbuf = s.wbuf ∧ (s.emit v).nin = s.nin ∧
    (s.emit v).nlen = s.nlen ∧ (s.emit v).nout = s.nout ∧ (s.emit v).nscheme = s.nscheme ∧
    (s.emit v).nprob = s.nprob ∧ (s.emit v).nstatus = s.nstatus ∧ (s.emit v).events = s.events ∧
    (s.emit v).era = s.era ∧ (s.emit v).draws = s.draws ∧ (s.emit v).ndraws = s.ndraws := by and_intros <;> rfl

@[simp] theorem State.warn_fields (k : WarnKind) (v : Nat) :
    (s.warn k v).cfg = s.cfg ∧ (s.warn k v).cur = s.cur ∧ (s.warn k v).pol = s.pol ∧
    (s.warn k v).prevEnd = s.prevEnd ∧ (s.warn k v).prevBit = s.prevBit ∧ (s.warn k v).idx = s.idx ∧
    (s.warn k v).optr = s.optr ∧ (s.warn k v).wptr = s.wptr + 1 ∧ (s.warn k v).n = s.n ∧
    (s.warn k v).lcmd = s.lcmd ∧ (s.warn k v).cmd = s.cmd ∧ (s.warn k v).ilen = s.ilen ∧
    (s.warn k v).busy = s.busy ∧ (s.warn k v).err = s.err ∧ (s.warn k v).olen = s.olen ∧
    (s.warn k v).padcnt = s.padcnt ∧ (s.warn k v).wcnt = s.wcnt ∧ (s.warn k v).ibuf = s.ibuf ∧
    (s.warn k v).obuf = s.obuf ∧ (s.warn k v).wbuf = s.wbuf.take s.wptr ++ [{ kind := k, val := v }] ∧ (s.warn k v).nin = s.nin ∧
    (s.warn k v).nlen = s.nlen ∧ (s.warn k v).nout = s.nout ∧ (s.warn k v).nscheme = s.nscheme ∧
    (s.warn k v).nprob = s.nprob ∧ (s.warn k v).nstatus = s.nstatus ∧ (s.warn k v).events = s.events ∧
    (s.warn k v).era = s.era ∧ (s.warn k v).draws = s.draws ∧ (s.warn k v).ndraws = s.ndraws := by and_intros <;> rfl

@[simp] theorem State.advance_fields (k : Nat) :
    (s.advance k).cfg = s.cfg ∧ (s.advance k).cur = s.cur ∧ (s.advance k).pol = s.pol ∧
    (s.advance k).prevEnd = s.prevEnd ∧ (s.advance k).prevBit = s.prevBit ∧ (s.advance k).idx = s.idx + k ∧
    (s.advance k).optr = s.optr ∧ (s.advance k).wptr = s.wptr ∧ (s.advance k).n = s.n ∧
    (s.advance k).lcmd = s.lcmd ∧ (s.advance k).cmd = s.cmd ∧ (s.advance k).ilen = s.ilen ∧
    (s.advance k).busy = s.busy ∧ (s.advance k).err = s.err ∧ (s.advance k).olen = s.olen ∧
    (s.advance k).padcnt = s.padcnt ∧ (s.advance k).wcnt = s.wcnt ∧ (s.advance k).ibuf = s.ibuf ∧
    (s.advance k).obuf = s.obuf ∧ (s.advance k).wbuf = s.wbuf ∧ (s.advance k).nin = s.nin ∧
    (s.advance k).nlen = s.nlen ∧ (s.advance k).nout = s.nout ∧ (s.advance k).nscheme = s.nscheme ∧
    (s.advance k).nprob = s.nprob ∧ (s.advance k).nstatus = s.nstatus ∧ (s.advance k).events = s.events ∧
    (s.advance k).era = s.era ∧ (s.advance k).draws = s.draws ∧ (s.advance k).ndraws = s.ndraws := by and_intros <;> rfl

@[simp] theorem State.start_fields (c : CmdWord) :
    (s.start c).cfg = s.cfg ∧ (s.start c).cur = false ∧ (s.start c).pol = .plus ∧
    (s.start c).prevEnd = false ∧ (s.start c).prevBit = false ∧ (s.start c).idx = 0 ∧
    (s.start c).optr = 0 ∧ (s.start c).wptr = 0 ∧ (s.start c).n = s.ilen ∧
    (s.start c).lcmd = c ∧ (s.start c).cmd = c ∧ (s.start c).ilen = s.ilen ∧
    (s.start c).busy = true ∧ (s.start c).err = s.err ∧ (s.start c).olen = s.olen ∧
    (s.start c).padcnt = s.padcnt ∧ (s.start c).wcnt = s.wcnt ∧ (s.start c).ibuf = s.ibuf ∧
    (s.start c).obuf = s.obuf ∧ (s.start c).wbuf = s.wbuf ∧ (s.start c).nin = s.nin ∧
    (s.start c).nlen = s.nlen ∧ (s.start c).nout = s.nout ∧ (s.start c).nscheme = s.nscheme ∧
    (s.start c).nprob = s.nprob ∧ (s.start c).nstatus = s.nstatus ∧ (s.start c).events = s.events ∧
    (s.start c).era = s.era ∧ (s.start c).draws = s.draws ∧ (s.start c).ndraws = s.ndraws := by and_intros <;> rfl

@[simp] theorem State.raise_fields (e : ErrCode) :
    (s.raise e).cfg = s.cfg ∧ (s.raise e).cur = s.cur ∧ (s.raise e).pol = s.pol ∧
    (s.raise e).prevEnd = s.prevEnd ∧ (s.raise e).prevBit = s.prevBit ∧ (s.raise e).idx = s.idx ∧
    (s.raise e).optr = s.optr ∧ (s.raise e).wptr = s.wptr ∧ (s.raise e).n = s.n ∧
    (s.raise e).lcmd = s.lcmd ∧ (s.raise e).cmd = s.cmd ∧ (s.raise e).ilen = s.ilen ∧
    (s.raise e).busy = false ∧ (s.raise e).err = e ∧ (s.raise e).olen = 0 ∧
    (s.raise e).padcnt = 0 ∧ (s.raise e).wcnt = 0 ∧ (s.raise e).ibuf = s.ibuf ∧
    (s.raise e).obuf = s.obuf ∧ (s.raise e).wbuf = s.wbuf ∧ (s.raise e).nin = s.nin ∧
    (s.raise e).nlen = s.nlen ∧ (s.raise e).nout = s.nout ∧ (s.raise e).nscheme = s.nscheme ∧
    (s.raise e).nprob = s.nprob ∧ (s.raise e).nstatus = s.nstatus ∧ (s.raise e).events = s.events ∧
    (s.raise e).era = s.era ∧ (s.raise e).draws = s.draws ∧ (s.raise e).ndraws = s.ndraws := by and_intros <;> rfl

@[simp] theorem State.finish_fields (p : Nat) :
    (s.finish p).cfg = s.cfg ∧ (s.finish p).cur = s.cur ∧ (s.finish p).pol = s.pol ∧
    (s.finish p).prevEnd = s.prevEnd ∧ (s.finish p).prevBit = s.prevBit ∧ (s.finish p).idx = s.idx ∧
    (s.finish p).optr = s.optr ∧ (s.finish p).wptr = s.wptr ∧ (s.finish p).n = s.n ∧
    (s.finish p).lcmd = s.lcmd ∧ (s.finish p).cmd = s.cmd ∧ (s.finish p).ilen = s.ilen ∧
    (s.finish p).busy = false ∧ (s.finish p).err = .noError ∧ (s.finish p).olen = s.optr ∧
    (s.finish p).padcnt = p ∧ (s.finish p).wcnt = s.wptr ∧ (s.finish p).ibuf = s.ibuf ∧
    (s.finish p).obuf = s.obuf.take s.optr ∧ (s.finish p).wbuf = s.wbuf.take s.wptr ∧ (s.finish p).nin = s.nin ∧
    (s.finish p).nlen = s.nlen ∧ (s.finish p).nout = s.nout ∧ (s.finish p).nscheme = s.nscheme ∧
    (s.finish p).nprob = s.nprob ∧ (s.finish p).nstatus = s.nstatus ∧ (s.finish p).events = s.events ∧
    (s.finish p).era = s.era ∧ (s.finish p).draws = s.draws + 1 ∧ (s.finish p).ndraws = s.ndraws := by and_intros <;> rfl

@[simp] theorem State.flipCurIf_fields (b : Bool) :
    (s.flipCurIf b).cfg = s.cfg ∧ (s.flipCurIf b).cur = (if b then !s.cur else s.cur) ∧ (s.flipCurIf b).pol = s.pol ∧
    (s.flipCurIf b).prevEnd = s.prevEnd ∧ (s.flipCurIf b).prevBit = s.prevBit ∧ (s.flipCurIf b).idx = s.idx ∧
    (s.flipCurIf b).optr = s.optr ∧ (s.flipCurIf b).wptr = s.wptr ∧ (s.flipCurIf b).n = s.n ∧
    (s.flipCurIf b).lcmd = s.lcmd ∧ (s.flipCurIf b).cmd = s.cmd ∧ (s.flipCurIf b).ilen = s.ilen ∧
    (s.flipCurIf b).busy = s.busy ∧ (s.flipCurIf b).err = s.err ∧ (s.flipCurIf b).olen = s.olen ∧
    (s.flipCurIf b).padcnt = s.padcnt ∧ (s.flipCurIf b).wcnt = s.wcnt ∧ (s.flipCurIf b).ibuf = s.ibuf ∧
    (s.flipCurIf b).obuf = s.obuf ∧ (s.flipCurIf b).wbuf = s.wbuf ∧ (s.flipCurIf b).nin = s.nin ∧
    (s.flipCurIf b).nlen = s.nlen ∧ (s.flipCurIf b).nout = s.nout ∧ (s.flipCurIf b).nscheme = s.nscheme ∧
    (s.flipCurIf b).nprob = s.nprob ∧ (s.flipCurIf b).nstatus = s.nstatus ∧ (s.flipCurIf b).events = s.events ∧
    (s.flipCurIf b).era = s.era ∧ (s.flipCurIf b).draws = s.draws ∧ (s.flipCurIf b).ndraws = s.ndraws := by and_intros <;> rfl

@[simp] theorem State.keepEnd_fields :
    (s.keepEnd).cfg = s.cfg ∧ (s.keepEnd).cur = s.cur ∧ (s.keepEnd).pol = s.pol ∧
    (s.keepEnd).prevEnd = levelBit (s.input (s.idx + 1)) ∧ (s.keepEnd).prevBit = s.prevBit ∧ (s.keepEnd).idx = s.idx ∧
    (s.keepEnd).optr = s.optr ∧ (s.keepEnd).wptr = s.wptr ∧ (s.keepEnd).n = s.n ∧
    (s.keepEnd).lcmd = s.lcmd ∧ (s.keepEnd).cmd = s.cmd ∧ (s.keepEnd).ilen = s.ilen ∧
    (s.keepEnd).busy = s.busy ∧ (s.keepEnd).err = s.err ∧ (s.keepEnd).olen = s.olen ∧
    (s.keepEnd).padcnt = s.padcnt ∧ (s.keepEnd).wcnt = s.wcnt ∧ (s.keepEnd).ibuf = s.ibuf ∧
    (s.keepEnd).obuf = s.obuf ∧ (s.keepEnd).wbuf = s.wbuf ∧ (s.keepEnd).nin = s.nin ∧
    (s.keepEnd).nlen = s.nlen ∧ (s.keepEnd).nout = s.nout ∧ (s.keepEnd).nscheme = s.nscheme ∧
    (s.keepEnd).nprob = s.nprob ∧ (s.keepEnd).nstatus = s.nstatus ∧ (s.keepEnd).events = s.events ∧
    (s.keepEnd).era = s.era ∧ (s.keepEnd).draws = s.draws ∧ (s.keepEnd).ndraws = s.ndraws := by and_intros <;> rfl

@[simp] theorem State.emitManBit_fields (b : Bool) :
    (s.emitManBit b).cfg = s.cfg ∧ (s.emitManBit b).cur = s.cur ∧ (s.emitManBit b).pol = s.pol ∧
    (s.emitManBit b).prevEnd = s.prevEnd ∧ (s.emitManBit b).prevBit = b ∧ (s.emitManBit b).idx = s.idx ∧
    (s.emitManBit b).optr = s.optr + 1 ∧ (s.emitManBit b).wptr = s.wptr ∧ (s.emitManBit b).n = s.n ∧
    (s.emitManBit b).lcmd = s.lcmd ∧ (s.emitManBit b).cmd = s.cmd ∧ (s.emitManBit b).ilen = s.ilen ∧
    (s.emitManBit b).busy = s.busy ∧ (s.emitManBit b).err = s.err ∧ (s.emitManBit b).olen = s.olen ∧
    (s.emitManBit b).padcnt = s.padcnt ∧ (s.emitManBit b).wcnt = s.wcnt ∧ (s.emitManBit b).ibuf = s.ibuf ∧
    (s.emitManBit b).obuf = s.obuf.take s.optr ++ [enc2 (b2i b)] ∧ (s.emitManBit b).wbuf = s.wbuf ∧ (s.emitManBit b).nin = s.nin ∧
    (s.emitManBit b).nlen = s.nlen ∧ (s.emitManBit b).nout = s.nout ∧ (s.emitManBit b).nscheme = s.nscheme ∧
    (s.emitManBit b).nprob = s.nprob ∧ (s.emitManBit b).nstatus = s.nstatus ∧ (s.emitManBit b).events = s.events ∧
    (s.emitManBit b).era = s.era ∧ (s.emitManBit b).draws = s.draws ∧ (s.emitManBit b).ndraws = s.ndraws := by and_intros <;> rfl

@[simp] theorem State.noiseRaise_fields (e : NoiseErr) :
    (s.noiseRaise e).cfg = s.cfg ∧ (s.noiseRaise e).cur = s.cur ∧ (s.noiseRaise e).pol = s.pol ∧
    (s.noiseRaise e).prevEnd = s.prevEnd ∧ (s.noiseRaise e).prevBit = s.prevBit ∧ (s.noiseRaise e).idx = s.idx ∧
    (s.noiseRaise e).optr = s.optr ∧ (s.noiseRaise e).wptr = s.wptr ∧ (s.noiseRaise e).n = s.n ∧
    (s.noiseRaise e).lcmd = s.lcmd ∧ (s.noiseRaise e).cmd = s.cmd ∧ (s.noiseRaise e).ilen = s.ilen ∧
    (s.noiseRaise e).busy = s.busy ∧ (s.noiseRaise e).err = s.err ∧ (s.noiseRaise e).olen = s.olen ∧
    (s.noiseRaise e).padcnt = s.padcnt ∧ (s.noiseRaise e).wcnt = s.wcnt ∧ (s.noiseRaise e).ibuf = s.ibuf ∧
    (s.noiseRaise e).obuf = s.obuf ∧ (s.noiseRaise e).wbuf = s.wbuf ∧ (s.noiseRaise e).nin = s.nin ∧
    (s.noiseRaise e).nlen = s.nlen ∧ (s.noiseRaise e).nout = s.nout ∧ (s.noiseRaise e).nscheme = s.nscheme ∧
    (s.noiseRaise e).nprob = s.nprob ∧ (s.noiseRaise e).nstatus = e ∧ (s.noiseRaise e).events = s.events ∧
    (s.noiseRaise e).era = s.era ∧ (s.noiseRaise e).draws = s.draws ∧ (s.noiseRaise e).ndraws = s.ndraws := by and_intros <;> rfl

@[simp] theorem State.startNoise_fields (w : SchemeWord) :
    (s.startNoise w).cfg = s.cfg ∧ (s.startNoise w).cur = s.cur ∧ (s.startNoise w).pol = s.pol ∧
    (s.startNoise w).prevEnd = s.prevEnd ∧ (s.startNoise w).prevBit = s.prevBit ∧ (s.startNoise w).idx = s.idx ∧
    (s.startNoise w).optr = s.optr ∧ (s.startNoise w).wptr = s.wptr ∧ (s.startNoise w).n = s.n ∧
    (s.startNoise w).lcmd = s.lcmd ∧ (s.startNoise w).cmd = s.cmd ∧ (s.startNoise w).ilen = s.ilen ∧
    (s.startNoise w).busy = s.busy ∧ (s.startNoise w).err = s.err ∧ (s.startNoise w).olen = s.olen ∧
    (s.startNoise w).padcnt = s.padcnt ∧ (s.startNoise w).wcnt = s.wcnt ∧ (s.startNoise w).ibuf = s.ibuf ∧
    (s.startNoise w).obuf = s.obuf ∧ (s.startNoise w).wbuf = s.wbuf ∧ (s.startNoise w).nin = s.nin ∧
    (s.startNoise w).nlen = s.nlen ∧ (s.startNoise w).nout = s.nout ∧ (s.startNoise w).nscheme = w ∧
    (s.startNoise w).nprob = s.nprob ∧ (s.startNoise w).nstatus = s.nstatus ∧ (s.startNoise w).events = s.events ∧
    (s.startNoise w).era = s.era ∧ (s.startNoise w).draws = s.draws ∧ (s.startNoise w).ndraws = s.ndraws := by and_intros <;> rfl

/-- `IN(i)` depends on `IBUF` and on which free contents it started with. -/
theorem input_congr {s t : State} (hi : t.ibuf = s.ibuf) (he : t.era = s.era) : t.input = s.input := by
  funext i; simp only [State.input, State.readIbuf, hi, he]

@[simp] theorem State.emit_input (v : Int) : (s.emit v).input = s.input := rfl
@[simp] theorem State.warn_input (k : WarnKind) (v : Nat) : (s.warn k v).input = s.input := rfl
@[simp] theorem State.advance_input (k : Nat) : (s.advance k).input = s.input := rfl
@[simp] theorem State.start_input (c : CmdWord) : (s.start c).input = s.input := rfl
@[simp] theorem State.flipCurIf_input (b : Bool) : (s.flipCurIf b).input = s.input := rfl
@[simp] theorem State.emitManBit_input (b : Bool) : (s.emitManBit b).input = s.input := rfl
@[simp] theorem State.finish_input (p : Nat) : (s.finish p).input = s.input := rfl
@[simp] theorem State.raise_input (e : ErrCode) : (s.raise e).input = s.input := rfl

/-! What the host reads of a buffer while `BUSY` = 0 (R215) -/

/-- An element of `IBUF` is read whatever `BUSY` is (R217). -/
theorem hostReadIbuf_lt {i : Nat} (h : i < s.cfg.maxIn) : hostReadIbuf s i = .ok (s.readIbuf i) := by
  simp [hostReadIbuf, h]

theorem hostReadObuf_idle {i : Nat} (hb : s.busy = false) (h : i < s.cfg.maxOut) :
    hostReadObuf s i = .ok (s.readObuf i) := by simp [hostReadObuf, hb, h]

theorem hostReadWbuf_idle {i : Nat} (hb : s.busy = false) (h : i < s.cfg.maxW) :
    hostReadWbuf s i = .ok ((s.readWbuf i).word s.cfg) := by simp [hostReadWbuf, hb, h]

/-- A record is a word of 1 + `LEN_W` bits (R76). -/
theorem Warning.word_lt (c : Config) (w : Warning) : w.word c < 2 ^ (1 + c.lenW) := by
  have hv : c.cutLen w.val < 2 ^ c.lenW := Nat.mod_lt _ (Nat.two_pow_pos _)
  rw [Warning.word, Nat.add_comm 1, Nat.pow_succ]
  cases w.kind <;> simp only [WarnKind.code] <;> omega

end Sys2Proof.Machine
end

