-- ==== Sys2Proof/Laws/Ops.lean ====
section
/-! SUPPORT. What each shared operation does, once: the element format, appending to the output and the warnings, the
counted loop, the element check, the common frames of encode and decode, and the padding step. -/

namespace Sys2Proof.Machine

/-! The element format (R11, R75) -/

theorem sext2_enc2 {v : Int} (hl : -2 ≤ v) (hu : v ≤ 1) : sext2 (enc2 v) = v := by
  have : v = -2 ∨ v = -1 ∨ v = 0 ∨ v = 1 := by omega
  rcases this with rfl | rfl | rfl | rfl <;> decide

theorem enc2_sext2 (e : Elem) : enc2 (sext2 e) = e := by revert e; decide

/-- The pattern `10` stands for -2 only (R75). -/
theorem enc2_ne_illegal {v : Int} (hl : -1 ≤ v) (hu : v ≤ 1) : enc2 v ≠ 0b10#2 := by
  have : v = -1 ∨ v = 0 ∨ v = 1 := by omega
  rcases this with rfl | rfl | rfl <;> decide

theorem sext2_range (e : Elem) : -2 ≤ sext2 e ∧ sext2 e ≤ 1 := by revert e; decide

theorem b2i_range (t : Bool) : b2i t = 0 ∨ b2i t = 1 := by cases t <;> simp [b2i]

/-! Appending to the output (R12) -/

variable (s : State)

@[simp] theorem emitAll_nil : s.emitAll [] = s := rfl
theorem emitAll_cons (v : Int) (vs : List Int) : s.emitAll (v :: vs) = (s.emit v).emitAll vs := rfl
theorem emitAll_append (vs ws : List Int) : s.emitAll (vs ++ ws) = (s.emitAll vs).emitAll ws := by
  simp [State.emitAll]
theorem emitAll_snoc (vs : List Int) (v : Int) : s.emitAll (vs ++ [v]) = (s.emitAll vs).emit v := by
  simp [State.emitAll]

/-- Appending changes the output and its length, and nothing else. -/
theorem emitAll_eq (vs : List Int) :
    s.emitAll vs = { s with obuf := (s.emitAll vs).obuf, optr := s.optr + vs.length } := by
  induction vs generalizing s with
  | nil => rfl
  | cons v vs ih =>
    rw [emitAll_cons, ih (s.emit v)]
    simp [State.emit, Nat.add_comm, Nat.add_left_comm]

@[simp] theorem emitAll_fields (vs : List Int) :
    (s.emitAll vs).cfg = s.cfg ∧ (s.emitAll vs).cur = s.cur ∧ (s.emitAll vs).pol = s.pol ∧
    (s.emitAll vs).prevEnd = s.prevEnd ∧ (s.emitAll vs).prevBit = s.prevBit ∧ (s.emitAll vs).idx = s.idx ∧
    (s.emitAll vs).optr = s.optr + vs.length ∧ (s.emitAll vs).wptr = s.wptr ∧ (s.emitAll vs).n = s.n ∧
    (s.emitAll vs).lcmd = s.lcmd ∧ (s.emitAll vs).cmd = s.cmd ∧ (s.emitAll vs).ilen = s.ilen ∧
    (s.emitAll vs).busy = s.busy ∧ (s.emitAll vs).err = s.err ∧ (s.emitAll vs).olen = s.olen ∧
    (s.emitAll vs).padcnt = s.padcnt ∧ (s.emitAll vs).wcnt = s.wcnt ∧ (s.emitAll vs).ibuf = s.ibuf ∧
    (s.emitAll vs).wbuf = s.wbuf ∧ (s.emitAll vs).nin = s.nin ∧ (s.emitAll vs).nlen = s.nlen ∧
    (s.emitAll vs).nout = s.nout ∧ (s.emitAll vs).nscheme = s.nscheme ∧ (s.emitAll vs).nprob = s.nprob ∧
    (s.emitAll vs).nstatus = s.nstatus ∧ (s.emitAll vs).events = s.events ∧ (s.emitAll vs).era = s.era ∧
    (s.emitAll vs).draws = s.draws ∧ (s.emitAll vs).ndraws = s.ndraws := by
  and_intros <;> rw [emitAll_eq]

@[simp] theorem emitAll_input (vs : List Int) : (s.emitAll vs).input = s.input :=
  input_congr (by simp) (by simp)

/-- The output up to the pointer is what it was, followed by the appended elements. -/
theorem emitAll_obuf (vs : List Int) (h : s.optr ≤ s.obuf.length) :
    (s.emitAll vs).obuf.take (s.optr + vs.length) = s.obuf.take s.optr ++ vs.map enc2 := by
  induction vs generalizing s with
  | nil => simp
  | cons v vs ih =>
    have h' : (s.emit v).optr ≤ (s.emit v).obuf.length := by simp [Nat.min_eq_left h]
    have := ih (s.emit v) h'
    simp only [State.emit_fields] at this
    have hl : (s.obuf.take s.optr ++ [enc2 v]).length = s.optr + 1 := by simp [Nat.min_eq_left h]
    rw [emitAll_cons, List.length_cons, ← Nat.add_assoc, Nat.add_right_comm, this, ← hl, List.take_length]
    simp

/-- Several warning records, one after the other. -/
def State.warnAll (s : State) (ws : List Warning) : State := ws.foldl (fun t w => t.warn w.kind w.val) s

@[simp] theorem warnAll_nil : s.warnAll [] = s := rfl
theorem warnAll_cons (w : Warning) (ws : List Warning) :
    s.warnAll (w :: ws) = (s.warn w.kind w.val).warnAll ws := rfl
theorem warnAll_snoc (ws : List Warning) (w : Warning) :
    s.warnAll (ws ++ [w]) = (s.warnAll ws).warn w.kind w.val := by simp [State.warnAll]

/-- Warning changes the records and their count, and nothing else. -/
theorem warnAll_eq (ws : List Warning) :
    s.warnAll ws = { s with wbuf := (s.warnAll ws).wbuf, wptr := s.wptr + ws.length } := by
  induction ws generalizing s with
  | nil => rfl
  | cons w ws ih =>
    rw [warnAll_cons, ih]
    simp [State.warn, Nat.add_comm, Nat.add_left_comm]

@[simp] theorem warnAll_fields (ws : List Warning) :
    (s.warnAll ws).cfg = s.cfg ∧ (s.warnAll ws).cur = s.cur ∧ (s.warnAll ws).pol = s.pol ∧
    (s.warnAll ws).prevEnd = s.prevEnd ∧ (s.warnAll ws).prevBit = s.prevBit ∧ (s.warnAll ws).idx = s.idx ∧
    (s.warnAll ws).optr = s.optr ∧ (s.warnAll ws).wptr = s.wptr + ws.length ∧ (s.warnAll ws).n = s.n ∧
    (s.warnAll ws).lcmd = s.lcmd ∧ (s.warnAll ws).cmd = s.cmd ∧ (s.warnAll ws).ilen = s.ilen ∧
    (s.warnAll ws).busy = s.busy ∧ (s.warnAll ws).err = s.err ∧ (s.warnAll ws).olen = s.olen ∧
    (s.warnAll ws).padcnt = s.padcnt ∧ (s.warnAll ws).wcnt = s.wcnt ∧ (s.warnAll ws).ibuf = s.ibuf ∧
    (s.warnAll ws).obuf = s.obuf ∧ (s.warnAll ws).nin = s.nin ∧ (s.warnAll ws).nlen = s.nlen ∧
    (s.warnAll ws).nout = s.nout ∧ (s.warnAll ws).nscheme = s.nscheme ∧ (s.warnAll ws).nprob = s.nprob ∧
    (s.warnAll ws).nstatus = s.nstatus ∧ (s.warnAll ws).events = s.events ∧ (s.warnAll ws).era = s.era ∧
    (s.warnAll ws).draws = s.draws ∧ (s.warnAll ws).ndraws = s.ndraws := by
  and_intros <;> rw [warnAll_eq]

@[simp] theorem warnAll_input (ws : List Warning) : (s.warnAll ws).input = s.input :=
  input_congr (by simp) (by simp)

/-- The records up to the pointer are what they were, followed by the appended ones. -/
theorem warnAll_wbuf (ws : List Warning) (h : s.wptr ≤ s.wbuf.length) :
    (s.warnAll ws).wbuf.take (s.wptr + ws.length) = s.wbuf.take s.wptr ++ ws := by
  induction ws generalizing s with
  | nil => simp
  | cons w ws ih =>
    have h' : (s.warn w.kind w.val).wptr ≤ (s.warn w.kind w.val).wbuf.length := by simp [Nat.min_eq_left h]
    have := ih (s.warn w.kind w.val) h'
    simp only [State.warn_fields] at this
    have hl : (s.wbuf.take s.wptr ++ [w]).length = s.wptr + 1 := by simp [Nat.min_eq_left h]
    rw [warnAll_cons, List.length_cons, ← Nat.add_assoc, Nat.add_right_comm, this, ← hl, List.take_length]
    simp

/-! The counted loop (R102) -/

/-- What holds before the first iteration and is carried through each of them holds, at the right count, after the
last. -/
theorem countedLoop_induct {stride : Nat} {body : State → State} {P : Nat → State → Prop} (count : Nat)
    (h0 : P 0 s) (hs : ∀ k t, k < count → P k t → P (k + 1) ((body t).advance stride)) :
    P count (countedLoop stride body count s) := by
  suffices H : ∀ c j t, j + c = count → P j t → P count (countedLoop stride body c t) from H count 0 s (by omega) h0
  intro c
  induction c with
  | zero => intro j t hj h; simpa [countedLoop, ← hj] using h
  | succ c ih => intro j t hj h; exact ih (j + 1) _ (by omega) (hs j t (by omega) h)

/-! The input and the element check (R94) -/

@[simp] theorem inputSeq_length : s.inputSeq.length = s.n := by simp [State.inputSeq]

theorem inputSeq_getD {i : Nat} (h : i < s.n) : s.inputSeq.getD i 0 = s.input i := by
  simp [State.inputSeq, h]

theorem elementsLegal_iff (legal : List Int) : s.elementsLegal legal = true ↔ ∀ v ∈ s.inputSeq, v ∈ legal := by
  simp [State.elementsLegal, State.inputSeq]

theorem elementsLegal_iff_lt (legal : List Int) :
    s.elementsLegal legal = true ↔ ∀ i < s.n, s.input i ∈ legal := by
  simp [State.elementsLegal]

/-! The common frames (R90, R110, R130) -/

/-- Everything a checked operation can do. -/
theorem transact_cases {legal : List Int} {e : ErrCode} {body : State → State} :
    (s.cfg.maxIn < s.n ∧ transact legal e body s = .refused .ilenReserved) ∨
    (s.n ≤ s.cfg.maxIn ∧ (∀ v ∈ s.inputSeq, v ∈ legal) ∧ transact legal e body s = .next (body s)) ∨
    (s.n ≤ s.cfg.maxIn ∧ (∃ v ∈ s.inputSeq, v ∉ legal) ∧ transact legal e body s = .next (s.raise e)) := by
  by_cases h1 : s.cfg.maxIn < s.n
  · exact .inl ⟨h1, by simp [transact, h1]⟩
  · by_cases h2 : s.elementsLegal legal = true
    · exact .inr (.inl ⟨by omega, (elementsLegal_iff s legal).1 h2, by simp [transact, h1, h2]⟩)
    · refine .inr (.inr ⟨by omega, ?_, by simp [transact, h1, h2]⟩)
      simpa [elementsLegal_iff] using h2

/-- On a legal input that fits, a checked operation runs its body. -/
theorem transact_legal {legal : List Int} {e : ErrCode} {body : State → State} (hn : s.n ≤ s.cfg.maxIn)
    (hl : ∀ v ∈ s.inputSeq, v ∈ legal) : transact legal e body s = .next (body s) := by
  simp [transact, Nat.not_lt.2 hn, (elementsLegal_iff s legal).2 hl]

/-- On an illegal input that fits, a checked operation is error entry. -/
theorem transact_illegal {legal : List Int} {e : ErrCode} {body : State → State} (hn : s.n ≤ s.cfg.maxIn)
    (hl : ∃ v ∈ s.inputSeq, v ∉ legal) : transact legal e body s = .next (s.raise e) := by
  have : s.elementsLegal legal ≠ true := by rw [Ne, elementsLegal_iff]; simpa using hl
  simp [transact, Nat.not_lt.2 hn, this]

/-! Finish and padding (R97, R146) -/

/-- Finishing after appending, in a transaction that has written nothing before. -/
theorem finish_emitAll_warnAll (vs : List Int) (ws : List Warning) (pad : Nat) (ho : s.optr = 0)
    (hw : s.wptr = 0) : ((s.warnAll ws).emitAll vs).finish pad =
      s.delivered vs pad ws := by
  have w1 := warnAll_wbuf s ws (by omega)
  have o2 := emitAll_obuf (s.warnAll ws) vs (by simp [ho])
  simp only [warnAll_fields, ho, hw, Nat.zero_add, List.take_zero, List.nil_append] at w1 o2
  simp [State.finish, State.delivered, ho, hw, w1, o2]

/-- The padding count is what is missing to the next multiple of the frame size (R146). -/
theorem padCount_spec (r : Nat) : padCount r < frameBits ∧ (r + padCount r) % frameBits = 0 := by
  unfold padCount frameBits; omega

theorem padCount_eq_zero (r : Nat) : padCount r = 0 ↔ r % frameBits = 0 := by
  unfold padCount frameBits; omega

/-- Padding appends zeros and, when there are any, one record. -/
theorem padZeros_eq (pad : Nat) :
    s.padZeros pad = (s.emitAll (List.replicate pad 0)).warnAll (padWarnings pad) := by
  by_cases h : pad = 0
  · simp [State.padZeros, padWarnings, h]
  · simp [State.padZeros, padWarnings, h, State.warnAll]

/-- Appending elements and appending records do not interfere. -/
theorem emit_warn (v : Int) (k : WarnKind) (x : Nat) : (s.emit v).warn k x = (s.warn k x).emit v := rfl

theorem emitAll_warn (vs : List Int) (k : WarnKind) (x : Nat) :
    (s.emitAll vs).warn k x = (s.warn k x).emitAll vs := by
  induction vs generalizing s with
  | nil => rfl
  | cons v vs ih => rw [emitAll_cons, ih, emit_warn]; rfl

theorem emitAll_warnAll (vs : List Int) (ws : List Warning) :
    (s.emitAll vs).warnAll ws = (s.warnAll ws).emitAll vs := by
  induction ws generalizing s with
  | nil => rfl
  | cons w ws ih => rw [warnAll_cons, emitAll_warn, ih]; rfl

theorem warnAll_append (ws xs : List Warning) : s.warnAll (ws ++ xs) = (s.warnAll ws).warnAll xs := by
  simp [State.warnAll]

/-- The padding step and finish after `raw` has been appended, in a transaction that had written nothing before. -/
theorem padAndFinish_eq (raw : List Int) (ws : List Warning) (ho : s.optr = 0) (hw : s.wptr = 0) :
    ((s.warnAll ws).emitAll raw).padAndFinish =
      s.delivered (raw ++ List.replicate (padCount raw.length) 0) (padCount raw.length)
        (ws ++ padWarnings (padCount raw.length)) := by
  have hop : ((s.warnAll ws).emitAll raw).optr = raw.length := by
    rw [emitAll_eq, warnAll_eq]; simp [ho]
  rw [State.padAndFinish, hop, padZeros_eq, ← emitAll_append, emitAll_warnAll, ← warnAll_append,
    finish_emitAll_warnAll s _ _ _ ho hw]

end Sys2Proof.Machine
end

