-- ==== Sys2Proof/Laws/Work.lean ====
section
/-! SUPPORT. The working registers an operation moves while it appends, as one update: it passes through every primitive,
so that a loop's state is always "what was appended, with these working registers". -/

namespace Sys2Proof.Machine

/-- The working registers of R21 but for the counters `optr`, `wptr`, `n` and the latched command. -/
structure Work where
  cur : Bool
  pol : Polarity
  prevEnd : Bool
  prevBit : Bool
  idx : Nat

/-- The working registers of a state. -/
def State.work (s : State) : Work :=
  { cur := s.cur, pol := s.pol, prevEnd := s.prevEnd, prevBit := s.prevBit, idx := s.idx }

/-- The state with these working registers. -/
def State.withWork (s : State) (w : Work) : State :=
  { s with cur := w.cur, pol := w.pol, prevEnd := w.prevEnd, prevBit := w.prevBit, idx := w.idx }

variable (s : State) (w : Work)

@[simp] theorem withWork_work : s.withWork s.work = s := rfl
@[simp] theorem work_withWork : (s.withWork w).work = w := rfl
@[simp] theorem withWork_withWork (w' : Work) : (s.withWork w).withWork w' = s.withWork w' := rfl
@[simp] theorem withWork_input : (s.withWork w).input = s.input := rfl
@[simp] theorem withWork_idx : (s.withWork w).idx = w.idx := rfl
@[simp] theorem withWork_cur : (s.withWork w).cur = w.cur := rfl
@[simp] theorem withWork_pol : (s.withWork w).pol = w.pol := rfl
@[simp] theorem withWork_prevEnd : (s.withWork w).prevEnd = w.prevEnd := rfl
@[simp] theorem withWork_prevBit : (s.withWork w).prevBit = w.prevBit := rfl

/-- Before a loop nothing has been appended. -/
theorem eq_withWork {w : Work} (h : w = s.work) : s = (s.emitAll []).withWork w := by subst h; rfl

theorem withWork_emit (v : Int) : (s.withWork w).emit v = (s.emit v).withWork w := rfl
theorem withWork_warn (k : WarnKind) (v : Nat) : (s.withWork w).warn k v = (s.warn k v).withWork w := rfl
theorem withWork_advance (k : Nat) : (s.withWork w).advance k = s.withWork { w with idx := w.idx + k } := rfl
theorem withWork_flipCurIf (b : Bool) :
    (s.withWork w).flipCurIf b = s.withWork { w with cur := if b then !w.cur else w.cur } := rfl
theorem withWork_emitManBit (b : Bool) :
    (s.withWork w).emitManBit b = (s.emit (b2i b)).withWork { w with prevBit := b } := rfl
theorem withWork_keepEnd :
    (s.withWork w).keepEnd = s.withWork { w with prevEnd := levelBit (s.input (w.idx + 1)) } := rfl
theorem withWork_emitSymbol (b : Bool) : (s.withWork w).emitSymbol b =
    ((s.emit (b2i (if b then !w.cur else w.cur))).emit (b2i !(if b then !w.cur else w.cur))).withWork
      { w with cur := !(if b then !w.cur else w.cur) } := rfl
theorem withWork_flipPol : (s.withWork w).flipPol = s.withWork { w with pol := w.pol.neg } := rfl

theorem withWork_emitAll (vs : List Int) : (s.withWork w).emitAll vs = (s.emitAll vs).withWork w := by
  induction vs generalizing s with
  | nil => rfl
  | cons v vs ih => rw [emitAll_cons, withWork_emit, ih]; rfl

theorem withWork_warnAll (ws : List Warning) : (s.withWork w).warnAll ws = (s.warnAll ws).withWork w := by
  induction ws generalizing s with
  | nil => rfl
  | cons x ws ih => rw [warnAll_cons, withWork_warn, ih]; rfl

theorem withWork_finish (p : Nat) : (s.withWork w).finish p = (s.finish p).withWork w := rfl

theorem withWork_delivered (out : List Int) (p : Nat) (ws : List Warning) :
    (s.withWork w).delivered out p ws = (s.delivered out p ws).withWork w := rfl

theorem withWork_padAndFinish : (s.withWork w).padAndFinish = s.padAndFinish.withWork w := by
  simp only [State.padAndFinish, padZeros_eq]
  rw [withWork_emitAll, withWork_warnAll, withWork_finish]
  rfl

/-- One more step of a loop that appends `f k` at each iteration. -/
theorem emitAll_range_succ (f : Nat → Int) (k : Nat) : s.emitAll ((List.range (k + 1)).map f) =
    (s.emitAll ((List.range k).map f)).emit (f k) := by
  simp [List.range_succ, emitAll_append, emitAll_cons]

/-- One more step of a loop that appends two elements at each iteration. -/
theorem emitAll_flatMap_succ (f g : Nat → Int) (k : Nat) :
    s.emitAll ((List.range (k + 1)).flatMap fun i => [f i, g i]) =
      ((s.emitAll ((List.range k).flatMap fun i => [f i, g i])).emit (f k)).emit (g k) := by
  simp [List.range_succ, emitAll_append, emitAll_cons]

end Sys2Proof.Machine
end

