-- ==== Sys2Proof/Laws/Encoder.lean ====
section
/-! SUPPORT. What the loop of each encoder does, once: the appended output is the encoder's function on sequences, and the
working registers it uses end as its rule says. -/

namespace Sys2Proof.Machine

variable (s : State)

/-- A bit is 0 or 1. -/
theorem bit_cases {i : Nat} (hl : ∀ v ∈ s.inputSeq, v ∈ bitAlphabet) (h : i < s.n) :
    s.input i = 0 ∨ s.input i = 1 := by
  have := hl (s.input i) (List.mem_map.2 ⟨i, List.mem_range.2 h, rfl⟩)
  simpa [bitAlphabet] using this

/-- The number of 1-bits before index k. -/
def onesBefore (X : List Int) (k : Nat) : Nat := (X.take k).count 1

theorem onesBefore_zero (X : List Int) : onesBefore X 0 = 0 := by simp [onesBefore]

theorem onesBefore_n : onesBefore s.inputSeq s.n = s.inputSeq.count 1 := by
  rw [onesBefore, List.take_of_length_le (by simp)]

theorem onesUpTo_eq (X : List Int) (k : Nat) : onesUpTo X k = onesBefore X (k + 1) := rfl

/-- The 1-bits before index k + 1 are those before k and the one at k. -/
theorem onesBefore_succ {k : Nat} (h : k < s.n) : onesBefore s.inputSeq (k + 1) =
    onesBefore s.inputSeq k + (if s.input k = 1 then 1 else 0) := by
  have hk : k < s.inputSeq.length := by simpa using h
  rw [onesBefore, List.take_succ_eq_append_getElem hk, List.count_append, onesBefore]
  simp [State.inputSeq, List.count_cons]

theorem encNrz_loop (hi : s.idx = 0) : countedLoop 1 encNrzBody s.n s =
    (s.emitAll (encNrzFn s.inputSeq)).withWork { s.work with idx := s.n } := by
  refine countedLoop_induct s (P := fun k t => t =
    (s.emitAll ((List.range k).map s.input)).withWork { s.work with idx := k }) s.n ?_ ?_
  · exact eq_withWork s (by simp [State.work, hi])
  · rintro k t hk rfl
    simp only [encNrzBody, withWork_emit, withWork_advance, withWork_input, withWork_idx, emitAll_input,
      emitAll_range_succ]

/-- The parity of a count as a 1-bit register. -/
def odd (k : Nat) : Bool := decide (k % 2 = 1)

theorem b2i_odd (k : Nat) : b2i (odd k) = parity k := by
  rcases Nat.mod_two_eq_zero_or_one k with h | h <;> simp [b2i, odd, parity, h]

theorem odd_succ (k : Nat) : odd (k + 1) = !odd k := by
  rcases Nat.mod_two_eq_zero_or_one k with h | h <;> simp [odd, h, Nat.add_mod]

theorem odd_add_one_if (k : Nat) (p : Prop) [Decidable p] :
    odd (k + if p then 1 else 0) = if decide p then !odd k else odd k := by
  by_cases h : p <;> simp [h, odd_succ]

theorem encNrzi_loop (hi : s.idx = 0) (hc : s.cur = false) : countedLoop 1 encNrziBody s.n s =
    (s.emitAll (encNrziFn s.inputSeq)).withWork { s.work with cur := odd (s.inputSeq.count 1), idx := s.n } := by
  rw [encNrziFn, inputSeq_length, ← onesBefore_n]
  refine countedLoop_induct s (P := fun k t => t =
    (s.emitAll ((List.range k).map fun i => parity (onesUpTo s.inputSeq i))).withWork
      { s.work with cur := odd (onesBefore s.inputSeq k), idx := k }) s.n ?_ ?_
  · exact eq_withWork s (by simp [State.work, hi, hc, onesBefore_zero, odd])
  · rintro k t hk rfl
    simp only [encNrziBody, withWork_flipCurIf, withWork_emit, withWork_advance, withWork_input, withWork_idx,
      withWork_cur, emitAll_input, emitAll_range_succ, onesUpTo_eq, onesBefore_succ s hk, ← b2i_odd,
      odd_add_one_if]
    simp [beq_eq_decide]

/-- The polarity after k marks (R113). -/
def polAfter (k : Nat) : Polarity := if odd k then .minus else .plus

theorem polAfter_succ (k : Nat) : polAfter (k + 1) = (polAfter k).neg := by
  cases h : odd k <;> simp [polAfter, odd_succ, h, Polarity.neg]

theorem polAfter_value (k : Nat) : (polAfter k).value = (-1) ^ k := by
  rcases Nat.even_or_odd k with h | h
  · have : odd k = false := by simp [odd, Nat.even_iff.1 h]
    simp [polAfter, this, Polarity.value, h.neg_one_pow]
  · have : odd k = true := by simp [odd, Nat.odd_iff.1 h]
    simp [polAfter, this, Polarity.value, h.neg_one_pow]

theorem encAmi_loop (hi : s.idx = 0) (hp : s.pol = .plus) (hl : ∀ v ∈ s.inputSeq, v ∈ bitAlphabet) :
    countedLoop 1 encAmiBody s.n s = (s.emitAll (encAmiFn s.inputSeq)).withWork
      { s.work with pol := polAfter (s.inputSeq.count 1), idx := s.n } := by
  rw [encAmiFn, inputSeq_length, ← onesBefore_n]
  refine countedLoop_induct s (P := fun k t => t =
    (s.emitAll ((List.range k).map fun i =>
      if s.inputSeq.getD i 0 = 0 then 0 else (-1) ^ onesUpTo s.inputSeq i)).withWork
      { s.work with pol := polAfter (onesBefore s.inputSeq k), idx := k }) s.n ?_ ?_
  · exact eq_withWork s (by simp [State.work, hi, hp, onesBefore_zero, polAfter, odd])
  · rintro k t hk rfl
    rw [emitAll_range_succ, inputSeq_getD s hk, onesUpTo_eq, onesBefore_succ s hk]
    rcases bit_cases s hl hk with h | h <;>
    simp [encAmiBody, withWork_flipPol, withWork_emit, withWork_advance, h, polAfter_succ, ← polAfter_value]

theorem encMan_loop (hi : s.idx = 0) (hl : ∀ v ∈ s.inputSeq, v ∈ bitAlphabet) :
    countedLoop 1 encManBody s.n s = (s.emitAll (encManFn s.inputSeq)).withWork { s.work with idx := s.n } := by
  rw [encManFn, inputSeq_length]
  refine countedLoop_induct s (P := fun k t => t =
    (s.emitAll ((List.range k).flatMap fun i =>
      [s.inputSeq.getD i 0, 1 - s.inputSeq.getD i 0])).withWork { s.work with idx := k }) s.n ?_ ?_
  · exact eq_withWork s (by simp [State.work, hi])
  · rintro k t hk rfl
    rw [emitAll_flatMap_succ, inputSeq_getD s hk]
    rcases bit_cases s hl hk with h | h <;> simp [encManBody, withWork_emit, withWork_advance, h]

/-- The loop of the three encoders that always have a mid-point transition: `start` says when there is one at symbol
start, `c k` is the level before symbol k. -/
theorem symbol_loop {body : State → State} {start : Int → Bool} (c : Nat → Bool)
    (hb : ∀ t, body t = t.emitSymbol (start (t.input t.idx))) (hi : s.idx = 0) (h0 : c 0 = s.cur)
    (hc : ∀ k < s.n, c (k + 1) = !(if start (s.input k) then !c k else c k)) :
    countedLoop 1 body s.n s = (s.emitAll ((List.range s.n).flatMap fun k =>
      [b2i (!c (k + 1)), b2i (c (k + 1))])).withWork { s.work with cur := c s.n, idx := s.n } := by
  refine countedLoop_induct s (P := fun k t => t =
    (s.emitAll ((List.range k).flatMap fun k => [b2i (!c (k + 1)), b2i (c (k + 1))])).withWork
      { s.work with cur := c k, idx := k }) s.n ?_ ?_
  · exact eq_withWork s (by simp [State.work, hi, h0])
  · rintro k t hk rfl
    rw [emitAll_flatMap_succ, hb, hc k hk]
    simp [withWork_emitSymbol, withWork_advance]

theorem encDman_loop (hi : s.idx = 0) (hc : s.cur = false) : countedLoop 1 encDmanBody s.n s =
    (s.emitAll (encDmanFn s.inputSeq)).withWork
      { s.work with cur := odd (s.inputSeq.count 1 + s.n), idx := s.n } := by
  rw [encDmanFn, inputSeq_length, ← onesBefore_n]
  rw [symbol_loop s (body := encDmanBody) (start := fun v => v == 1) (fun k => odd (onesBefore s.inputSeq k + k)) (fun _ => rfl) hi
    (by simp [hc, onesBefore_zero, odd])]
  · congr 2
    refine List.flatMap_congr fun k hk => ?_
    simp only [onesUpTo_eq, ← b2i_odd, odd_succ, ← Nat.add_assoc, Bool.not_not]
  · intro k hk
    simp only [onesBefore_succ s hk, ← Nat.add_assoc, odd_succ, Nat.add_right_comm _ _ k, odd_add_one_if,
      beq_eq_decide]

theorem encBpm_loop (hi : s.idx = 0) (hc : s.cur = false) : countedLoop 1 encBpmBody s.n s =
    (s.emitAll (encBpmFn s.inputSeq)).withWork
      { s.work with cur := odd (s.inputSeq.count 1 + s.n), idx := s.n } :=
  encDman_loop s hi hc

theorem encBps_loop (hi : s.idx = 0) (hc : s.cur = false) (hl : ∀ v ∈ s.inputSeq, v ∈ bitAlphabet) :
    countedLoop 1 encBpsBody s.n s = (s.emitAll (encBpsFn s.inputSeq)).withWork
      { s.work with cur := odd (s.inputSeq.count 1), idx := s.n } := by
  rw [encBpsFn, inputSeq_length, ← onesBefore_n]
  rw [symbol_loop s (body := encBpsBody) (start := fun v => v == 0) (fun k => odd (onesBefore s.inputSeq k)) (fun _ => rfl) hi
    (by simp [hc, onesBefore_zero, odd])]
  · congr 2
    refine List.flatMap_congr fun k hk => ?_
    simp only [onesUpTo_eq, ← b2i_odd, odd_succ]
  · intro k hk
    rw [onesBefore_succ s hk]
    rcases bit_cases s hl hk with h | h <;> simp [h, odd_succ]

end Sys2Proof.Machine
end

