-- ==== Sys2Proof/Laws/Decoder.lean ====
section
/-! SUPPORT. What the loop of each decoder does, once: the appended raw bits are the decoder's function on sequences, the
warnings are those of R134, and the working registers it uses end as its rule says. -/

namespace Sys2Proof.Machine

variable (s : State)

/-- A level of a binary alphabet is 0 or 1. -/
theorem level_cases {scheme : Scheme} (hs : levelAlphabet scheme = [0, 1]) {i : Nat}
    (hl : ∀ v ∈ s.inputSeq, v ∈ levelAlphabet scheme) (h : i < s.n) : s.input i = 0 ∨ s.input i = 1 := by
  have := hl (s.input i) (List.mem_map.2 ⟨i, List.mem_range.2 h, rfl⟩)
  simpa [hs] using this

theorem b2i_levelBit {v : Int} (h : v = 0 ∨ v = 1) : b2i (levelBit v) = v := by
  rcases h with rfl | rfl <;> rfl

theorem decNrz_loop (hi : s.idx = 0) : countedLoop 1 decNrzBody s.n s =
    (s.emitAll (rawNrzFn s.inputSeq)).withWork { s.work with idx := s.n } := encNrz_loop s hi

theorem decNrzi_loop (hi : s.idx = 0) : decNrziRaw s =
    (s.emitAll (rawNrziFn s.inputSeq)).withWork { s.work with idx := s.n } := by
  rw [rawNrziFn, inputSeq_length]
  by_cases hn : s.n = 0
  · simp only [decNrziRaw, hn, if_true]
    exact eq_withWork s (by simp [State.work, hi])
  · have H : countedLoop 1 decNrziBody (s.n - 1) (s.advance 1) =
        (s.emitAll ((List.range (s.n - 1)).map fun j =>
          b2i (s.inputSeq.getD (j + 1) 0 != s.inputSeq.getD j 0))).withWork
            { s.work with idx := (s.n - 1) + 1 } := by
      refine countedLoop_induct _ (P := fun k t => t = (s.emitAll ((List.range k).map fun j =>
          b2i (s.inputSeq.getD (j + 1) 0 != s.inputSeq.getD j 0))).withWork
            { s.work with idx := k + 1 }) (s.n - 1) ?_ ?_
      · simp only [List.range_zero, List.map_nil, emitAll_nil]
        simp [State.advance, State.withWork, State.work, hi]
      · rintro k t hk rfl
        rw [emitAll_range_succ, inputSeq_getD s (by omega), inputSeq_getD s (by omega)]
        simp [decNrziBody, withWork_emit, withWork_advance]
    rw [decNrziRaw, if_neg hn, H, Nat.sub_add_cancel (Nat.pos_of_ne_zero hn)]

theorem decAmi_loop (hi : s.idx = 0) : countedLoop 1 decAmiBody s.n s =
    (s.emitAll (rawAmiFn s.inputSeq)).withWork { s.work with idx := s.n } := by
  rw [rawAmiFn, State.inputSeq, List.map_map]
  refine countedLoop_induct s (P := fun k t => t = (s.emitAll ((List.range k).map
    ((fun v => b2i (v != 0)) ∘ s.input))).withWork { s.work with idx := k }) s.n ?_ ?_
  · exact eq_withWork s (by simp [State.work, hi])
  · rintro k t hk rfl
    rw [emitAll_range_succ]
    simp [decAmiBody, withWork_emit, withWork_advance]

/-- R134: the bit of a pair after the bit `prev`. -/
def manBit (prev : Bool) (a b : Int) : Bool :=
  if a = 0 ∧ b = 1 then false else if a = 1 ∧ b = 0 then true else prev

/-- The bit most recently decoded before symbol k (R25). -/
def manPrev (prev : Bool) (L : List Int) : Nat → Bool
  | 0 => prev
  | k + 1 => manBit (manPrev prev L k) (L.getD (2 * k) 0) (L.getD (2 * k + 1) 0)

/-- Dropping the first symbol. -/
theorem manPrev_cons (prev : Bool) (a b : Int) (rest : List Int) (k : Nat) :
    manPrev prev (a :: b :: rest) (k + 1) = manPrev (manBit prev a b) rest k := by
  induction k with
  | zero => rfl
  | succ k ih =>
    rw [manPrev, ih, manPrev, Nat.mul_succ]
    simp

/-- The recursive form of R134 gives, for symbol k, the bit most recently decoded before symbol k + 1. -/
theorem rawManFrom_eq (prev : Bool) (L : List Int) : rawManFrom (b2i prev) L =
    (List.range (L.length / 2)).map fun k => b2i (manPrev prev L (k + 1)) := by
  induction h : L.length / 2 generalizing prev L with
  | zero =>
    match L, h with
    | [], _ => rfl
    | [_], _ => rfl
    | _ :: _ :: _, h => simp at h
  | succ m ih =>
    match L, h with
    | [], h => simp at h
    | [_], h => simp at h
    | a :: b :: rest, h =>
      have hm : rest.length / 2 = m := by simp only [List.length_cons] at h; omega
      have hb : (if a = 0 ∧ b = 1 then (0 : Int) else if a = 1 ∧ b = 0 then 1 else b2i prev) =
          b2i (manBit prev a b) := by simp only [manBit]; split_ifs <;> rfl
      rw [rawManFrom, hb, ih _ _ hm, List.range_succ_eq_map, List.map_cons, List.map_map]
      simp only [Function.comp_def, manPrev_cons]
      rfl

theorem decMan_loop (hi : s.idx = 0) (hb : s.prevBit = false) (hl : ∀ v ∈ s.inputSeq, v ∈ levelAlphabet .man) :
    countedLoop 2 decManBody (s.n / 2) s =
      ((s.warnAll (transitionWarnings .man s.inputSeq)).emitAll (rawManFn s.inputSeq)).withWork
        { s.work with prevBit := manPrev false s.inputSeq (s.n / 2), idx := 2 * (s.n / 2) } := by
  rw [rawManFn, show (0 : Int) = b2i false from rfl, rawManFrom_eq, transitionWarnings, invalidSymbols,
    inputSeq_length]
  refine countedLoop_induct s (P := fun k t => t =
    ((s.warnAll (((List.range k).filter fun k =>
        s.inputSeq.getD (2 * k) 0 == s.inputSeq.getD (2 * k + 1) 0).map fun k =>
          { kind := .invalidTransition, val := k })).emitAll
      ((List.range k).map fun k => b2i (manPrev false s.inputSeq (k + 1)))).withWork
        { s.work with prevBit := manPrev false s.inputSeq k, idx := 2 * k }) (s.n / 2) ?_ ?_
  · exact eq_withWork s (by simp [State.work, hi, hb, manPrev])
  · rintro k t hk rfl
    rw [emitAll_range_succ, List.range_succ, List.filter_append, List.map_append, manPrev,
      inputSeq_getD s (by omega), inputSeq_getD s (by omega)]
    have h0 := level_cases s (scheme := .man) rfl hl (show 2 * k < s.n by omega)
    have h1 := level_cases s (scheme := .man) rfl hl (show 2 * k + 1 < s.n by omega)
    rcases h0 with h0 | h0 <;> rcases h1 with h1 | h1 <;>
    simp [decManBody, manBit, withWork_emitManBit, withWork_advance, withWork_warn, emitAll_warn, h0, h1, Nat.mul_succ,
      State.inputSeq, warnAll_snoc, show 2 * k < s.n by omega, show 2 * k + 1 < s.n by omega]

theorem decDman_loop (hi : s.idx = 0) : countedLoop 2 decDmanBody (s.n / 2 - 1) s =
    (s.emitAll (rawDmanFn s.inputSeq)).withWork { s.work with idx := 2 * (s.n / 2 - 1) } := by
  rw [rawDmanFn, inputSeq_length]
  refine countedLoop_induct s (P := fun k t => t = (s.emitAll ((List.range k).map fun k =>
    b2i (s.inputSeq.getD (2 * k) 0 == s.inputSeq.getD (2 * k + 2) 0))).withWork
      { s.work with idx := 2 * k }) (s.n / 2 - 1) ?_ ?_
  · exact eq_withWork s (by simp [State.work, hi])
  · rintro k t hk rfl
    rw [emitAll_range_succ, inputSeq_getD s (by omega), inputSeq_getD s (by omega)]
    simp [decDmanBody, withWork_emit, withWork_advance, Nat.mul_succ]

/-- The register `prev_end` before symbol k (R24). -/
def endBefore (L : List Int) (k : Nat) : Bool := levelBit (prevLevel L k)

theorem endBefore_succ (k : Nat) (h : 2 * k + 1 < s.n) :
    endBefore s.inputSeq (k + 1) = levelBit (s.input (2 * k + 1)) := by
  rw [endBefore, prevLevel, if_neg (Nat.succ_ne_zero k), show 2 * (k + 1) - 1 = 2 * k + 1 by omega,
    inputSeq_getD s h]

theorem b2i_endBefore {scheme : Scheme} (hs : levelAlphabet scheme = [0, 1])
    (hl : ∀ v ∈ s.inputSeq, v ∈ levelAlphabet scheme) {k : Nat} (h : 2 * k < s.n) :
    b2i (endBefore s.inputSeq k) = prevLevel s.inputSeq k := by
  refine b2i_levelBit ?_
  by_cases hk : k = 0
  · simp [prevLevel, hk]
  · rw [prevLevel, if_neg hk, inputSeq_getD s (by omega)]
    exact level_cases s hs hl (by omega)

/-- The loop of the two decoders that compare a symbol's start with the previous symbol's end: `bit` says what the
comparison gives. -/
theorem biphase_loop {scheme : Scheme} {body : State → State} {bit : Int → Int → Int}
    (hs : levelAlphabet scheme = [0, 1]) (hb : ∀ t, body t =
      (t.emit (bit (t.input t.idx) (b2i t.prevEnd))).keepEnd) (hi : s.idx = 0) (he : s.prevEnd = false)
    (hl : ∀ v ∈ s.inputSeq, v ∈ levelAlphabet scheme) : countedLoop 2 body (s.n / 2) s =
      (s.emitAll ((List.range (s.n / 2)).map fun k =>
        bit (s.inputSeq.getD (2 * k) 0) (prevLevel s.inputSeq k))).withWork
        { s.work with prevEnd := endBefore s.inputSeq (s.n / 2), idx := 2 * (s.n / 2) } := by
  refine countedLoop_induct s (P := fun k t => t = (s.emitAll ((List.range k).map fun k =>
    bit (s.inputSeq.getD (2 * k) 0) (prevLevel s.inputSeq k))).withWork
      { s.work with prevEnd := endBefore s.inputSeq k, idx := 2 * k }) (s.n / 2) ?_ ?_
  · exact eq_withWork s (by simp [State.work, hi, he, endBefore, prevLevel, levelBit])
  · rintro k t hk rfl
    rw [emitAll_range_succ, inputSeq_getD s (by omega), endBefore_succ s k (by omega), hb,
      ← b2i_endBefore s hs hl (by omega)]
    simp [withWork_emit, withWork_keepEnd, withWork_advance, Nat.mul_succ]

theorem decBpm_loop (hi : s.idx = 0) (he : s.prevEnd = false) (hl : ∀ v ∈ s.inputSeq, v ∈ levelAlphabet .bpm) :
    countedLoop 2 decBpmBody (s.n / 2) s = (s.emitAll (rawBpmFn s.inputSeq)).withWork
      { s.work with prevEnd := endBefore s.inputSeq (s.n / 2), idx := 2 * (s.n / 2) } := by
  rw [rawBpmFn, inputSeq_length]
  exact biphase_loop s (scheme := .bpm) (bit := fun a e => b2i (a != e)) rfl (fun _ => rfl) hi he hl

theorem decBps_loop (hi : s.idx = 0) (he : s.prevEnd = false) (hl : ∀ v ∈ s.inputSeq, v ∈ levelAlphabet .bps) :
    countedLoop 2 decBpsBody (s.n / 2) s = (s.emitAll (rawBpsFn s.inputSeq)).withWork
      { s.work with prevEnd := endBefore s.inputSeq (s.n / 2), idx := 2 * (s.n / 2) } := by
  rw [rawBpsFn, inputSeq_length]
  exact biphase_loop s (scheme := .bps) (bit := fun a e => b2i (a == e)) rfl (fun _ => rfl) hi he hl

end Sys2Proof.Machine
end

