-- ==== Sys2Proof/Laws/Frames.lean ====
section
/-! SUPPORT. What the common frames of encode and decode deliver, once their loop is known (R110, R130), and what every
operation of a scheme can therefore do. -/

namespace Sys2Proof.Machine

variable {s : State}

theorem bitsLegal_iff : s.BitsLegal ↔ ∀ v ∈ s.inputSeq, v ∈ bitAlphabet := by simp [State.inputSeq]

theorem levelsLegal_iff {S : Scheme} : s.LevelsLegal S ↔ ∀ v ∈ s.inputSeq, v ∈ levelAlphabet S := by
  simp [State.inputSeq]

/-- An encode of legal bits delivers what its loop appended. -/
theorem encodeWith_delivers {body : State → State} {out : List Int} {w : Work} (hs : s.Started) (hl : s.BitsLegal)
    (h : countedLoop 1 body s.n s = (s.emitAll out).withWork w) :
    encodeWith body s = .next ((s.delivered out 0 []).withWork w) := by
  rw [encodeWith, transact_legal s hs.fits (bitsLegal_iff.1 hl)]
  simp only [h, withWork_finish]
  rw [← warnAll_nil s, finish_emitAll_warnAll s _ _ _ hs.optr hs.wptr]
  simp

theorem padWarnings_padCount (r : Nat) : padWarnings (padCount r) =
    if r % 8 = 0 then [] else [{ kind := .padding, val := (8 - r % 8) % 8 }] := by
  have h0 := padCount_eq_zero r
  have h1 : (8 - r % 8) % 8 = padCount r := rfl
  simp only [frameBits] at h0
  simp only [padWarnings, h0, h1]

/-- A decode of legal levels delivers the raw bits and the invalid symbols its loop found, padded. -/
theorem decodeWith_delivers {S : Scheme} {raw : State → State} {out : List Int} {ks : List Nat} {w : Work}
    (hs : s.Started) (hl : s.LevelsLegal S)
    (h : raw s = ((s.warnAll (ks.map fun k => { kind := .invalidTransition, val := k })).emitAll out).withWork w) :
    decodeWith S raw s = .next ((s.decoded out ks).withWork w) := by
  rw [decodeWith, transact_legal s hs.fits (levelsLegal_iff.1 hl)]
  simp only [h, withWork_padAndFinish]
  rw [padAndFinish_eq s _ _ hs.optr hs.wptr, padWarnings_padCount]
  rfl

/-- The symbol numbers a scheme's decoder reports (R140). -/
def invalidOf (S : Scheme) (L : List Int) : List Nat := if S = .man then invalidSymbols L else []

/-- What `ENC.S` does on legal bits, but for the working registers. -/
theorem enc_delivers (S : Scheme) (hs : s.Started) (hl : s.BitsLegal) : ∃ w : Work, w.idx = s.n ∧
    exec (coreInstr false (.known S)) s = .next ((s.delivered (encFn S s.inputSeq) 0 []).withWork w) := by
  have hb := bitsLegal_iff.1 hl
  cases S
  · exact ⟨_, rfl, encodeWith_delivers hs hl (encNrz_loop s hs.idx)⟩
  · exact ⟨_, rfl, encodeWith_delivers hs hl (encNrzi_loop s hs.idx hs.cur)⟩
  · exact ⟨_, rfl, encodeWith_delivers hs hl (encAmi_loop s hs.idx hs.pol hb)⟩
  · exact ⟨_, rfl, encodeWith_delivers hs hl (encMan_loop s hs.idx hb)⟩
  · exact ⟨_, rfl, encodeWith_delivers hs hl (encDman_loop s hs.idx hs.cur)⟩
  · exact ⟨_, rfl, encodeWith_delivers hs hl (encBpm_loop s hs.idx hs.cur)⟩
  · exact ⟨_, rfl, encodeWith_delivers hs hl (encBps_loop s hs.idx hs.cur hb)⟩

/-- What `DEC.S` does on legal levels, but for the working registers. -/
theorem dec_delivers (S : Scheme) (hs : s.Started) (hl : s.LevelsLegal S) : ∃ w : Work, w.idx ≤ s.n ∧
    exec (coreInstr true (.known S)) s =
      .next ((s.decoded (rawFn S s.inputSeq) (invalidOf S s.inputSeq)).withWork w) := by
  have hb := levelsLegal_iff.1 hl
  have hn : 2 * (s.n / 2) ≤ s.n := by omega
  cases S
  · exact ⟨_, Nat.le_refl _, decodeWith_delivers hs hl (decNrz_loop s hs.idx)⟩
  · exact ⟨_, Nat.le_refl _, decodeWith_delivers (ks := []) hs hl (decNrzi_loop s hs.idx)⟩
  · exact ⟨_, Nat.le_refl _, decodeWith_delivers (ks := []) hs hl (decAmi_loop s hs.idx)⟩
  · exact ⟨_, hn, decodeWith_delivers hs hl (decMan_loop s hs.idx hs.prevBit hb)⟩
  · exact ⟨_, show 2 * (s.n / 2 - 1) ≤ s.n by omega, decodeWith_delivers (ks := []) hs hl (decDman_loop s hs.idx)⟩
  · exact ⟨_, hn, decodeWith_delivers (ks := []) hs hl (decBpm_loop s hs.idx hs.prevEnd hb)⟩
  · exact ⟨_, hn, decodeWith_delivers (ks := []) hs hl (decBps_loop s hs.idx hs.prevEnd hb)⟩

/-- Every `ENC.S` is a checked operation on bits. -/
theorem enc_transact (S : Scheme) : ∃ body, ∀ s,
    exec (coreInstr false (.known S)) s = transact bitAlphabet .invalidBit body s := by
  cases S <;> exact ⟨_, fun _ => rfl⟩

/-- Every `DEC.S` is a checked operation on the scheme's levels. -/
theorem dec_transact (S : Scheme) : ∃ body, ∀ s,
    exec (coreInstr true (.known S)) s = transact (levelAlphabet S) .invalidLevel body s := by
  cases S <;> exact ⟨_, fun _ => rfl⟩

/-- What `ENC.S` does on illegal bits: error entry. -/
theorem enc_illegal (S : Scheme) (hn : s.n ≤ s.cfg.maxIn) (hl : ¬ s.BitsLegal) :
    exec (coreInstr false (.known S)) s = .next (s.raise .invalidBit) := by
  have hb : ∃ v ∈ s.inputSeq, v ∉ bitAlphabet := by simpa [bitsLegal_iff] using hl
  obtain ⟨body, h⟩ := enc_transact S
  rw [h, transact_illegal s hn hb]

/-- What `DEC.S` does on illegal levels: error entry. -/
theorem dec_illegal (S : Scheme) (hn : s.n ≤ s.cfg.maxIn) (hl : ¬ s.LevelsLegal S) :
    exec (coreInstr true (.known S)) s = .next (s.raise .invalidLevel) := by
  have hb : ∃ v ∈ s.inputSeq, v ∉ levelAlphabet S := by simpa [levelsLegal_iff] using hl
  obtain ⟨body, h⟩ := dec_transact S
  rw [h, transact_illegal s hn hb]

/-- An input longer than `IBUF` is refused (R30, U1). -/
theorem known_unfit (dir : Bool) (S : Scheme) (hn : s.cfg.maxIn < s.n) :
    exec (coreInstr dir (.known S)) s = .refused .ilenReserved := by
  cases dir
  · obtain ⟨body, h⟩ := enc_transact S
    rw [h, transact, if_pos hn]
  · obtain ⟨body, h⟩ := dec_transact S
    rw [h, transact, if_pos hn]

/-- The raw bit count (R139). -/
theorem rawFn_length (S : Scheme) (L : List Int) : (rawFn S L).length = rawCount L.length S := by
  cases S <;> simp [rawFn, rawNrzFn, rawNrziFn, rawAmiFn, rawDmanFn, rawBpmFn, rawBpsFn, rawCount]
  rw [rawManFn, show (0 : Int) = b2i false from rfl, rawManFrom_eq]
  simp

/-- The output length of an encode (R118). -/
theorem encFn_length (S : Scheme) (B : List Int) : (encFn S B).length = levelsPerBit S * B.length := by
  cases S <;> simp [encFn, encNrzFn, encNrziFn, encAmiFn, encManFn, encDmanFn, encBpmFn, encBpsFn, levelsPerBit,
    List.length_flatMap, Nat.mul_comm]

theorem parity_range (k : Nat) : parity k = 0 ∨ parity k = 1 := by
  rcases Nat.mod_two_eq_zero_or_one k with h | h <;> simp [parity, h]

/-- Every output element of an encode is -1, 0 or +1, and -1 comes from AMI alone (R75). -/
theorem encFn_range (S : Scheme) (B : List Int) (hB : ∀ v ∈ B, v ∈ bitAlphabet) :
    ∀ v ∈ encFn S B, v = 0 ∨ v = 1 ∨ (S = .ami ∧ v = -1) := by
  have hp := parity_range
  have hget : ∀ i < B.length, B.getD i 0 = 0 ∨ B.getD i 0 = 1 := fun i hi => by
    have := hB _ (List.getElem_mem hi)
    simpa [bitAlphabet, hi] using this
  intro v hv
  cases S
  · have := hB v hv; simp [bitAlphabet] at this; tauto
  · simp only [encFn, encNrziFn, List.mem_map] at hv
    obtain ⟨i, -, rfl⟩ := hv
    have := hp (onesUpTo B i); tauto
  · simp only [encFn, encAmiFn, List.mem_map] at hv
    obtain ⟨i, -, rfl⟩ := hv
    split_ifs
    · simp
    · rcases neg_one_pow_eq_or Int (onesUpTo B i) with h | h <;> simp [h]
  · simp only [encFn, encManFn, List.mem_flatMap, List.mem_range, List.mem_cons, List.not_mem_nil, or_false] at hv
    obtain ⟨i, hi, hv⟩ := hv
    have := hget i hi
    omega
  all_goals
    simp only [encFn, encDmanFn, encBpmFn, encBpsFn, List.mem_flatMap, List.mem_cons, List.not_mem_nil, or_false] at hv
    obtain ⟨i, -, hv | hv⟩ := hv <;> rw [hv]
  · have := hp (onesUpTo B i + i); tauto
  · have := hp (onesUpTo B i + i + 1); tauto
  · have := hp (onesUpTo B i + i); tauto
  · have := hp (onesUpTo B i + i + 1); tauto
  · have := hp (onesUpTo B i + 1); tauto
  · have := hp (onesUpTo B i); tauto

/-- Every raw bit is 0 or 1. -/
theorem rawFn_range (S : Scheme) (L : List Int) (hL : ∀ v ∈ L, v ∈ levelAlphabet S) :
    ∀ v ∈ rawFn S L, v = 0 ∨ v = 1 := by
  intro v hv
  cases S
  · have := hL v hv; simpa [levelAlphabet] using this
  case man =>
    simp only [rawFn, rawManFn] at hv
    rw [show (0 : Int) = b2i false from rfl, rawManFrom_eq, List.mem_map] at hv
    obtain ⟨i, -, rfl⟩ := hv
    exact b2i_range _
  all_goals
    simp only [rawFn, rawNrziFn, rawAmiFn, rawDmanFn, rawBpmFn, rawBpsFn, List.mem_map] at hv
    obtain ⟨i, -, rfl⟩ := hv
    exact b2i_range _

/-- What the host reads of a delivered output. -/
theorem delivered_output {out : List Int} {p : Nat} {ws : List Warning} (w : Work)
    (h : ∀ v ∈ out, v = 0 ∨ v = 1 ∨ v = -1) : ((s.delivered out p ws).withWork w).output = out := by
  refine List.ext_getElem (by simp [State.output, State.delivered, State.withWork]) fun i h1 h2 => ?_
  have hi := h _ (List.getElem_mem h2)
  simp [State.output, State.readObuf, State.delivered, State.withWork, h2]
  exact sext2_enc2 (by omega) (by omega)

/-- What the host reads of delivered warnings. -/
theorem delivered_warnings {out : List Int} {p : Nat} {ws : List Warning} (w : Work) :
    ((s.delivered out p ws).withWork w).warnings = ws := by
  refine List.ext_getElem (by simp [State.warnings, State.delivered, State.withWork]) fun i h1 h2 => ?_
  simp [State.warnings, State.readWbuf, State.delivered, State.withWork, h2]

/-- The results a delivery leaves (R17). -/
theorem delivered_results {out : List Int} {p : Nat} {ws : List Warning} (w : Work)
    (h : ∀ v ∈ out, v = 0 ∨ v = 1 ∨ v = -1) : ((s.delivered out p ws).withWork w).results =
      { err := .noError, out := out, pad := p, warns := ws } := by
  simp only [State.results, delivered_output w h, delivered_warnings]
  rfl

/-- The results error entry leaves (R186). -/
theorem raise_results (e : ErrCode) : (s.raise e).results = .ofError e := by
  simp [State.results, State.output, State.warnings, Results.ofError]

/-- A delivered decode is the function of R130. -/
theorem decoded_results (S : Scheme) (w : Work) (hl : s.LevelsLegal S) :
    ((s.decoded (rawFn S s.inputSeq) (invalidOf S s.inputSeq)).withWork w).results = decResults S s.inputSeq := by
  rw [State.decoded, delivered_results]
  · have : transitionWarnings S s.inputSeq =
        (invalidOf S s.inputSeq).map fun k => { kind := .invalidTransition, val := k } := by
      cases S <;> rfl
    rw [decResults, this, padWarnings_padCount]
    rfl
  · intro v hv
    rcases List.mem_append.1 hv with hv | hv
    · have := rawFn_range S _ (levelsLegal_iff.1 hl) v hv; tauto
    · have := (List.mem_replicate.1 hv).2; tauto

/-- The results of every operation of CORE on a started state are R17's function of the command and the input. -/
theorem core_results (dir : Bool) (sid : SchemeId) (hs : s.Started) : ∃ t, exec (coreInstr dir sid) s = .next t ∧
    t.results = codec dir sid s.inputSeq ∧ t.busy = false := by
  cases sid with
  | reserved =>
    refine ⟨s.raise .invalidScheme, by cases dir <;> rfl, ?_, rfl⟩
    rw [raise_results]; cases dir <;> rfl
  | known S =>
    cases dir
    · by_cases hl : s.BitsLegal
      · obtain ⟨w, -, h⟩ := enc_delivers S hs hl
        refine ⟨_, h, ?_, rfl⟩
        rw [delivered_results]
        · rw [codec, if_pos (by simpa using bitsLegal_iff.1 hl)]; rfl
        · intro v hv
          have := encFn_range S _ (bitsLegal_iff.1 hl) v hv; tauto
      · refine ⟨_, enc_illegal S hs.fits hl, ?_, rfl⟩
        rw [raise_results, codec, if_neg (by simpa using fun h => hl (bitsLegal_iff.2 h))]
    · by_cases hl : s.LevelsLegal S
      · obtain ⟨w, -, h⟩ := dec_delivers S hs hl
        refine ⟨_, h, ?_, rfl⟩
        rw [decoded_results S w hl, codec, if_pos (by simpa using levelsLegal_iff.1 hl)]
      · refine ⟨_, dec_illegal S hs.fits hl, ?_, rfl⟩
        rw [raise_results, codec, if_neg (by simpa using fun h => hl (levelsLegal_iff.2 h))]

end Sys2Proof.Machine
end

