-- ==== Sys2Proof/Laws/PerInstr.lean ====
section
/-! SUPPORT. One statement about every instruction as syntax, and its lemma for each constructor. -/

/-- R78, R85: an instruction is missing from an instance exactly when its command word is of format N and the instance
has no noise unit; every instruction with a word of format C exists on every instance. -/
def Sys2Proof.Laws.CommandWord.Statement (i : Sys2Proof.Instr) : Prop :=
  ∀ cfg : Sys2Proof.Config,
    i.wellFormed cfg = false ↔ (∃ w, Sys2Proof.encode i = .n w) ∧ cfg.hasNoiseUnit = false

namespace Sys2Proof.Laws.CommandWord

theorem encNrz : Statement .encNrz := fun _ => by simp [Instr.wellFormed, encode]
theorem encNrzi : Statement .encNrzi := fun _ => by simp [Instr.wellFormed, encode]
theorem encAmi : Statement .encAmi := fun _ => by simp [Instr.wellFormed, encode]
theorem encMan : Statement .encMan := fun _ => by simp [Instr.wellFormed, encode]
theorem encDman : Statement .encDman := fun _ => by simp [Instr.wellFormed, encode]
theorem encBpm : Statement .encBpm := fun _ => by simp [Instr.wellFormed, encode]
theorem encBps : Statement .encBps := fun _ => by simp [Instr.wellFormed, encode]
theorem decNrz : Statement .decNrz := fun _ => by simp [Instr.wellFormed, encode]
theorem decNrzi : Statement .decNrzi := fun _ => by simp [Instr.wellFormed, encode]
theorem decAmi : Statement .decAmi := fun _ => by simp [Instr.wellFormed, encode]
theorem decMan : Statement .decMan := fun _ => by simp [Instr.wellFormed, encode]
theorem decDman : Statement .decDman := fun _ => by simp [Instr.wellFormed, encode]
theorem decBpm : Statement .decBpm := fun _ => by simp [Instr.wellFormed, encode]
theorem decBps : Statement .decBps := fun _ => by simp [Instr.wellFormed, encode]
theorem reservedEnc7 : Statement .reservedEnc7 := fun _ => by simp [Instr.wellFormed, encode]
theorem reservedDec7 : Statement .reservedDec7 := fun _ => by simp [Instr.wellFormed, encode]
theorem noise (scheme : SchemeId) : Statement (.noise scheme) := fun _ => by simp [Instr.wellFormed, encode]

end Sys2Proof.Laws.CommandWord
end

