-- ==== Sys2Proof/Laws/Step.lean ====
section
/-! SUPPORT. What an operation can do in any state, and what a step can do, each said once. -/

namespace Sys2Proof.Machine

variable {s t : State}

/-- A relation that is reflexive and transitive and holds across each part of an iteration holds across the loop. -/
theorem countedLoop_rel {R : State → State → Prop} (hr : ∀ s, R s s) (ht : ∀ s t u, R s t → R t u → R s u)
    {body : State → State} {stride : Nat} (hb : ∀ s, R s (body s)) (ha : ∀ s, R s (s.advance stride)) (k : Nat)
    (s : State) : R s (countedLoop stride body k s) := by
  induction k generalizing s with
  | zero => exact hr s
  | succ k ih => exact ht _ _ _ (ht _ _ _ (hb s) (ha _)) (ih _)

theorem emitAll_rel {R : State → State → Prop} (hr : ∀ s, R s s) (ht : ∀ s t u, R s t → R t u → R s u)
    (he : ∀ s v, R s (s.emit v)) (vs : List Int) (s : State) : R s (s.emitAll vs) := by
  induction vs generalizing s with
  | nil => exact hr s
  | cons v vs ih => exact ht _ _ _ (he s v) (ih _)

/-- A relation that is reflexive and transitive and holds across the primitives of R12 and the phases of R90 holds
across every operation of CORE that the moves of the working registers of R21 in `own` respect. -/
structure Respects (R : State → State → Prop) : Prop where
  refl : ∀ s, R s s
  trans : ∀ s t u, R s t → R t u → R s u
  emit : ∀ s v, R s (s.emit v)
  warn : ∀ s k v, R s (s.warn k v)
  advance : ∀ s k, R s (s.advance k)
  finish : ∀ s p, R s (s.finish p)
  raise : ∀ s e, R s (s.raise e)

theorem Respects.padAndFinish {R : State → State → Prop} (h : Respects R) (s : State) : R s s.padAndFinish := by
  have hz : R s (s.padZeros (padCount s.optr)) := by
    unfold State.padZeros
    split
    · exact h.refl s
    · exact h.trans _ _ _ (emitAll_rel h.refl h.trans h.emit _ s) (h.warn _ _ _)
  exact h.trans _ _ _ hz (h.finish _ _)

theorem Respects.transact {R : State → State → Prop} (h : Respects R) {legal : List Int} {e : ErrCode}
    {body : State → State} (hb : R s (body s)) (hx : transact legal e body s = .next t) : R s t := by
  unfold Machine.transact at hx
  split_ifs at hx
  · exact Host.Outcome.next.inj hx ▸ hb
  · exact Host.Outcome.next.inj hx ▸ h.raise s e

theorem Respects.encode {R : State → State → Prop} (h : Respects R) {body : State → State}
    (hb : ∀ s, R s (body s)) (hx : encodeWith body s = .next t) : R s t :=
  h.transact (h.trans _ _ _ (countedLoop_rel h.refl h.trans hb (fun s => h.advance s 1) s.n s) (h.finish _ _)) hx

theorem Respects.decode {R : State → State → Prop} (h : Respects R) {S : Scheme} {raw : State → State}
    (hb : ∀ s, R s (raw s)) (hx : decodeWith S raw s = .next t) : R s t :=
  h.transact (h.trans _ _ _ (hb s) (h.padAndFinish _)) hx

theorem Respects.loop {R : State → State → Prop} (h : Respects R) {body : State → State} (stride k : Nat)
    (hb : ∀ s, R s (body s)) (s : State) : R s (countedLoop stride body k s) :=
  countedLoop_rel h.refl h.trans hb (fun s => h.advance s stride) k s

/-- What each kind of operation of CORE respects: the four conditions are for the operations that use `cur`, `pol`,
`prev_bit` and `prev_end`. -/
theorem Respects.exec {R : State → State → Prop} (h : Respects R) (i : Instr)
    (hc : i = .encNrzi ∨ i = .encDman ∨ i = .encBpm ∨ i = .encBps → ∀ s b, R s (s.flipCurIf b))
    (hp : i = .encAmi → ∀ s, R s s.flipPol)
    (hb : i = .decMan → ∀ s b, R s (s.emitManBit b))
    (he : i = .decBpm ∨ i = .decBps → ∀ s, R s s.keepEnd)
    (hn : ∀ sid, i = .noise sid → ∀ t, Machine.exec i s = .next t → R s t)
    (hx : Machine.exec i s = .next t) : R s t := by
  have symbol : (∀ s b, R s (s.flipCurIf b)) → ∀ s b, R s (s.emitSymbol b) := fun hc s b =>
    h.trans _ _ _ (h.trans _ _ _ (h.trans _ _ _ (hc s b) (h.emit _ _)) (hc _ true)) (h.emit _ _)
  cases i with
  | encNrz => exact h.encode (body := encNrzBody) (fun s => h.emit _ _) hx
  | encNrzi => exact h.encode (body := encNrziBody) (fun s => h.trans _ _ _ (hc (by simp) _ _) (h.emit _ _)) hx
  | encAmi =>
    refine h.encode (body := encAmiBody) (fun s => ?_) hx
    unfold encAmiBody
    split
    · exact h.emit _ _
    · exact h.trans _ _ _ (hp rfl _) (h.emit _ _)
  | encMan =>
    refine h.encode (body := encManBody) (fun s => ?_) hx
    unfold encManBody
    split <;> exact h.trans _ _ _ (h.emit _ _) (h.emit _ _)
  | encDman => exact h.encode (body := encDmanBody) (fun s => symbol (hc (by simp)) s _) hx
  | encBpm => exact h.encode (body := encBpmBody) (fun s => symbol (hc (by simp)) s _) hx
  | encBps => exact h.encode (body := encBpsBody) (fun s => symbol (hc (by simp)) s _) hx
  | decNrz => exact h.decode (raw := fun t => countedLoop 1 decNrzBody t.n t) (fun s => h.loop _ _ (fun s => h.emit _ _) s) hx
  | decNrzi =>
    refine h.decode (raw := decNrziRaw) (fun s => ?_) hx
    unfold decNrziRaw
    split
    · exact h.refl s
    · exact h.trans _ _ _ (h.advance s 1) (h.loop _ _ (fun s => h.emit _ _) _)
  | decAmi => exact h.decode (raw := fun t => countedLoop 1 decAmiBody t.n t) (fun s => h.loop _ _ (fun s => h.emit _ _) s) hx
  | decMan =>
    refine h.decode (raw := fun t => countedLoop 2 decManBody (t.n / 2) t) (fun s => h.loop _ _ (fun s => ?_) s) hx
    simp only [decManBody]
    split_ifs
    · exact hb rfl _ _
    · exact hb rfl _ _
    · exact h.trans _ _ _ (h.warn _ _ _) (hb rfl _ _)
  | decDman => exact h.decode (raw := fun t => countedLoop 2 decDmanBody (t.n / 2 - 1) t) (fun s => h.loop _ _ (fun s => h.emit _ _) s) hx
  | decBpm => exact h.decode (raw := fun t => countedLoop 2 decBpmBody (t.n / 2) t) (fun s => h.loop _ _ (fun s => h.trans _ _ _ (h.emit _ _) (he (by simp) _)) s) hx
  | decBps => exact h.decode (raw := fun t => countedLoop 2 decBpsBody (t.n / 2) t) (fun s => h.loop _ _ (fun s => h.trans _ _ _ (h.emit _ _) (he (by simp) _)) s) hx
  | reservedEnc7 => exact Host.Outcome.next.inj hx ▸ h.raise s _
  | reservedDec7 => exact Host.Outcome.next.inj hx ▸ h.raise s _
  | noise sid => exact hn sid rfl t hx

/-- Everything `NOISE` can do. -/
theorem noise_cases (sid : SchemeId) (s : State) :
    exec (.noise sid) s = .refused .noiseUnitAbsent ∨ exec (.noise sid) s = .refused .nlenReserved ∨
    exec (.noise sid) s = .refused .noiseLevelUnspecified ∨
    (sid = .reserved ∧ exec (.noise sid) s = .next (s.noiseRaise .invalidScheme)) ∨
    ((∃ S, sid = .known S) ∧ (s.nprob < 0 ∨ 1 < s.nprob) ∧
      exec (.noise sid) s = .next (s.noiseRaise .invalidProbability)) ∨
    (∃ S, sid = .known S ∧ s.cfg.hasNoiseUnit = true ∧ 0 ≤ s.nprob ∧ s.nprob ≤ 1 ∧ s.nlen ≤ s.cfg.noiseCap ∧
      s.noiseLegal S = true ∧ exec (.noise sid) s = .next (s.noiseFinish S)) := by
  by_cases hu : s.cfg.hasNoiseUnit = true
  · cases sid with
    | reserved => exact .inr (.inr (.inr (.inl ⟨rfl, by simp [exec, execNoise, hu, schemeOf]⟩)))
    | known S =>
      by_cases hp : s.nprob < 0 ∨ 1 < s.nprob
      · exact .inr (.inr (.inr (.inr (.inl ⟨⟨S, rfl⟩, hp, by
          simp [exec, execNoise, hu, schemeOf, hp]⟩))))
      · by_cases hc : s.cfg.noiseCap < s.nlen
        · exact .inr (.inl (by simp [exec, execNoise, hu, schemeOf, hp, hc]))
        · by_cases hl : s.noiseLegal S = true
          · push Not at hp
            exact .inr (.inr (.inr (.inr (.inr ⟨S, rfl, hu, hp.1, hp.2, by omega, hl, by
              simp [exec, execNoise, hu, schemeOf, hp, hc, hl]⟩))))
          · exact .inr (.inr (.inl (by simp [exec, execNoise, hu, schemeOf, hp, hc, hl])))
  · exact .inl (by simp [exec, execNoise, hu])

/-- Everything a step can do: run an operation, or be a move of the world outside. -/
theorem step_cases (s : State) :
    (s.busy = true ∧ ∃ rest, (s.events = rest ∨ s.events = .engine :: rest) ∧
      step s = exec (decode (.c s.lcmd)) { s with events := rest }) ∨
    (s.busy = false ∧ s.events = [] ∧ step s = .next s) ∨
    (s.busy = false ∧ ∃ rest, s.events = .engine :: rest ∧ step s = .next { s with events := rest }) ∨
    (∃ w rest, s.events = .write w :: rest ∧ step s = hostWrite w { s with events := rest }) ∨
    (∃ v rest, s.events = .noise v :: rest ∧ step s = exec (decode (.n (BitVec.ofNat 3 v)))
      { s with events := rest, nscheme := BitVec.ofNat 3 v }) ∨
    (∃ rest, s.events = .reset :: rest ∧ step s = .next ({ s with events := rest }.hardReset)) := by
  cases he : s.events with
  | nil =>
    rcases Bool.eq_false_or_eq_true s.busy with hb | hb
    · refine .inl ⟨hb, [], .inl rfl, ?_⟩
      have : ({ s with events := [] } : State) = s := by rw [← he]
      rw [this]; simp [step, fetch, he, engineMove, hb]
    · exact .inr (.inl ⟨hb, rfl, by simp [step, fetch, he, engineMove, hb]⟩)
  | cons e rest =>
    cases e with
    | engine =>
      cases hb : s.busy
      · exact .inr (.inr (.inl ⟨rfl, rest, rfl, by simp [step, fetch, he, engineMove, hb]⟩))
      · exact .inl ⟨rfl, rest, .inr rfl, by simp [step, fetch, he, engineMove, hb]⟩
    | write w => exact .inr (.inr (.inr (.inl ⟨w, rest, rfl, by simp [step, fetch, he]⟩)))
    | noise v => exact .inr (.inr (.inr (.inr (.inl ⟨v, rest, rfl, by simp [step, fetch, he, noiseMove]; rfl⟩))))
    | reset => exact .inr (.inr (.inr (.inr (.inr ⟨rest, rfl, by simp [step, fetch, he]⟩))))

/-- Everything a host write can do when it is neither a fault nor a refusal. -/
theorem hostWrite_cases {w : HostWrite} (h : hostWrite w s = .next t) :
    t = s ∨ (s.busy = false ∧ s.ilen ≤ s.cfg.maxIn ∧ ∃ v, w = .reg 0 v ∧ t = s.start (BitVec.ofNat 4 v)) ∨
    (s.busy = false ∧ ∃ v, w = .reg 1 v ∧ t = { s with ilen := s.cfg.cutLen v }) ∨
    (s.busy = false ∧ ∃ i v, w = .ibuf i v ∧ i < s.cfg.maxIn ∧ t = { s with ibuf := s.ibuf.write i (BitVec.ofNat 2 v) }) ∨
    (∃ i v, w = .nin i v ∧ i < s.cfg.noiseCap ∧ t = { s with nin := s.nin.write i (BitVec.ofNat 2 v) }) ∨
    (∃ v, w = .nlen v ∧ t = { s with nlen := v }) ∨ (∃ p, w = .nprob p ∧ t = { s with nprob := p }) := by
  cases w with
  | reg r v =>
    match r with
    | 0 =>
      simp only [hostWrite, State.writeReg, State.writeCmd] at h
      split_ifs at h with hb hi
      · exact .inl (Host.Outcome.next.inj h).symm
      · exact .inr (.inl ⟨by simpa using hb, by omega, v, rfl, (Host.Outcome.next.inj h).symm⟩)
    | 1 =>
      simp only [hostWrite, State.writeReg, State.writeIlen] at h
      split_ifs at h with hb
      · exact .inl (Host.Outcome.next.inj h).symm
      · exact .inr (.inr (.inl ⟨by simpa using hb, v, rfl, (Host.Outcome.next.inj h).symm⟩))
    | 2 | 3 | 4 | 5 => exact .inl (Host.Outcome.next.inj h).symm
    | _ + 6 => simp [hostWrite, State.writeReg] at h
  | ibuf i v =>
    simp only [hostWrite, atIndex, State.writeIbuf] at h
    split_ifs at h with hi hb
    · exact .inl (Host.Outcome.next.inj h).symm
    · exact .inr (.inr (.inr (.inl ⟨by simpa using hb, i, v, rfl, hi, (Host.Outcome.next.inj h).symm⟩)))
  | obuf i v =>
    simp only [hostWrite, atIndex] at h
    split_ifs at h
    exact .inl (Host.Outcome.next.inj h).symm
  | wbuf i v =>
    simp only [hostWrite, atIndex] at h
    split_ifs at h
    exact .inl (Host.Outcome.next.inj h).symm
  | nin i v =>
    simp only [hostWrite, State.toNoiseUnit, atIndex] at h
    split_ifs at h with hu hi
    exact .inr (.inr (.inr (.inr (.inl ⟨i, v, rfl, hi, (Host.Outcome.next.inj h).symm⟩))))
  | nlen v =>
    simp only [hostWrite, State.toNoiseUnit] at h
    split_ifs at h
    exact .inr (.inr (.inr (.inr (.inr (.inl ⟨v, rfl, (Host.Outcome.next.inj h).symm⟩)))))
  | nprob p =>
    simp only [hostWrite, State.toNoiseUnit] at h
    split_ifs at h
    exact .inr (.inr (.inr (.inr (.inr (.inr ⟨p, rfl, (Host.Outcome.next.inj h).symm⟩)))))

end Sys2Proof.Machine
end

