-- ==== Sys2Proof/Tests/Slice0.lean ====
section
/-! SUPPORT. Tests of the model against the worked values of 95_test_vectors.md, and for every obligation with hypotheses
a concrete state that meets them (`test_witness_<obligation>`). Expected values are the spec's tables', never the
model's own answers. -/

namespace Sys2Proof.Machine.Tests

/-! Helpers -/

/-- The chosen instance, idle, with `xs` loaded (R83 `LOAD`). -/
def loaded (xs : List Int) : State :=
  { State.power Config.chosen [] with ibuf := xs.mapIdx fun i v => (i, enc2 v), ilen := xs.length }

/-- The chosen instance with the command `w` on `xs` started. -/
def started (w : CmdWord) (xs : List Int) : State := (loaded xs).start w

/-- The chosen instance with a noise input and a probability. -/
def noisy (xs : List Int) (p : Rat) : State :=
  { State.power Config.chosen [] with nin := xs.mapIdx fun i v => (i, enc2 v), nlen := xs.length, nprob := p }

/-- An instance without a noise unit. -/
def quiet : State := State.power { Config.chosen with hasNoiseUnit := false } []

/-- What the host reads after a run that goes on. -/
def seen : Host.Outcome State Fault Refusal → Option Results
  | .next t => some t.results
  | .fault _ => none
  | .refused _ => none

/-- The noise unit's output and status after a run that goes on. -/
def noiseSeen : Host.Outcome State Fault Refusal → Option (List Elem × NoiseErr)
  | .next t => some (t.nout, t.nstatus)
  | .fault _ => none
  | .refused _ => none

/-- Whether a run goes on to a state with `p`. -/
def goesTo (p : State → Bool) : Host.Outcome State Fault Refusal → Bool
  | .next t => p t
  | .fault _ => false
  | .refused _ => false

theorem exists_next {o : Host.Outcome State Fault Refusal} {P : State → Prop} [DecidablePred P]
    (h : goesTo (fun t => decide (P t)) o = true) : ∃ t, o = .next t ∧ P t := by
  cases o with
  | next t => exact ⟨t, rfl, by simpa [goesTo] using h⟩
  | fault r => simp [goesTo] at h
  | refused r => simp [goesTo] at h

def ok (out : List Int) (pad : Nat) (warns : List Warning) : Option Results :=
  some { err := .noError, out := out, pad := pad, warns := warns }

def IT (k : Nat) : Warning := { kind := .invalidTransition, val := k }
def PAD (c : Nat) : Warning := { kind := .padding, val := c }

theorem started_Started (w : CmdWord) (xs : List Int) (h : xs.length ≤ 31) : (started w xs).Started :=
  ⟨rfl, rfl, rfl, h, rfl, rfl, rfl, rfl, rfl, rfl, rfl⟩

/-! Well-formedness (R78, R85) -/

/-- The one check an instruction can fail: `NOISE` on an instance without the unit. -/
theorem test_wellFormed_refuses_noise : (Instr.noise (.known .ami)).wellFormed quiet.cfg = false := by decide
theorem test_wellFormed_accepts_noise : (Instr.noise (.known .ami)).wellFormed Config.chosen = true := by decide
theorem test_wellFormed_accepts_reserved : Instr.reservedEnc7.wellFormed quiet.cfg = true := by decide

/-! Decoding, word by word from R78 and R85 -/

theorem test_decode_encNrz : decode (.c 0b0000#4) = .encNrz := by decide
theorem test_decode_encNrzi : decode (.c 0b0001#4) = .encNrzi := by decide
theorem test_decode_encAmi : decode (.c 0b0010#4) = .encAmi := by decide
theorem test_decode_encMan : decode (.c 0b0011#4) = .encMan := by decide
theorem test_decode_encDman : decode (.c 0b0100#4) = .encDman := by decide
theorem test_decode_encBpm : decode (.c 0b0101#4) = .encBpm := by decide
theorem test_decode_encBps : decode (.c 0b0110#4) = .encBps := by decide
theorem test_decode_reservedEnc7 : decode (.c 0b0111#4) = .reservedEnc7 := by decide
theorem test_decode_decNrz : decode (.c 0b1000#4) = .decNrz := by decide
theorem test_decode_decNrzi : decode (.c 0b1001#4) = .decNrzi := by decide
theorem test_decode_decAmi : decode (.c 0b1010#4) = .decAmi := by decide
theorem test_decode_decMan : decode (.c 0b1011#4) = .decMan := by decide
theorem test_decode_decDman : decode (.c 0b1100#4) = .decDman := by decide
theorem test_decode_decBpm : decode (.c 0b1101#4) = .decBpm := by decide
theorem test_decode_decBps : decode (.c 0b1110#4) = .decBps := by decide
theorem test_decode_reservedDec7 : decode (.c 0b1111#4) = .reservedDec7 := by decide
theorem test_decode_noise : decode (.n 0b010#3) = .noise (.known .ami) := by decide
theorem test_decode_noise_reserved : decode (.n 0b111#3) = .noise .reserved := by decide
/-- R86: of a write wider than the command word only bits 3:0 count. -/
theorem test_decode_wide : decodeTableWord 8 0xFB = some .decMan := by decide
theorem test_decode_format_n : decodeTableWord 3 0b011 = some (.noise (.known .man)) := by decide
/-- A string shorter than either format is rejected by name. -/
theorem test_decode_too_short : decodeBits 2 3 = .error .tooShort := by rfl
/-- A placed word is the next instruction run from reset. -/
theorem test_place_runs : seen (step (State.reset.withFetchWord 4 0b1111)) =
    some { err := .invalidScheme, out := [], pad := 0, warns := [] } := by decide

/-! Parameters (95_test_vectors.md section 6.1: `MAX_IN` = 16 has `LEN_W` = 6) and the record format (R76) -/

theorem test_lenW : ({ Config.chosen with maxIn := 16 } : Config).lenW = 6 := by decide
theorem test_record_it : (IT 2).word { Config.chosen with maxIn := 16 } = 0b0000010 := by decide
theorem test_record_pad : (PAD 5).word { Config.chosen with maxIn := 16 } = 0b1000101 := by decide
/-- Section 6.1: `LOAD [-1,+1,0,-1]` is `11`, `01`, `00`, `11`. -/
theorem test_elements : [-1, 1, 0, -1].map enc2 = [0b11#2, 0b01#2, 0b00#2, 0b11#2] := by decide

/-! Each operation on an input of section 2, which is also the witness that its statement's hypotheses are met -/

theorem test_witness_EncNrzDelivers : ∃ s : State, s.Started ∧ s.BitsLegal ∧
    seen (exec .encNrz s) = ok [1,0,1,1,0,0,1,0] 0 [] :=
  ⟨started 0x0 [1,0,1,1,0,0,1,0], started_Started _ _ (by decide), by decide, by decide⟩
theorem test_witness_EncNrziDelivers : ∃ s : State, s.Started ∧ s.BitsLegal ∧
    seen (exec .encNrzi s) = ok [1,1,0,1,1,1,0,0] 0 [] :=
  ⟨started 0x1 [1,0,1,1,0,0,1,0], started_Started _ _ (by decide), by decide, by decide⟩
theorem test_witness_EncAmiDelivers : ∃ s : State, s.Started ∧ s.BitsLegal ∧
    seen (exec .encAmi s) = ok [-1,0,1,-1,0,0,1,0] 0 [] :=
  ⟨started 0x2 [1,0,1,1,0,0,1,0], started_Started _ _ (by decide), by decide, by decide⟩
theorem test_witness_EncManDelivers : ∃ s : State, s.Started ∧ s.BitsLegal ∧
    seen (exec .encMan s) = ok [0,1,0,1,1,0,0,1] 0 [] :=
  ⟨started 0x3 [0,0,1,0], started_Started _ _ (by decide), by decide, by decide⟩
theorem test_witness_EncDmanDelivers : ∃ s : State, s.Started ∧ s.BitsLegal ∧
    seen (exec .encDman s) = ok [0,1,1,0,1,0,0,1] 0 [] :=
  ⟨started 0x4 [0,0,1,0], started_Started _ _ (by decide), by decide, by decide⟩
theorem test_witness_EncBpmDelivers : ∃ s : State, s.Started ∧ s.BitsLegal ∧
    seen (exec .encBpm s) = ok [1,0,1,0,0,1,0,1] 0 [] :=
  ⟨started 0x5 [1,1,0,1], started_Started _ _ (by decide), by decide, by decide⟩
theorem test_witness_EncBpsDelivers : ∃ s : State, s.Started ∧ s.BitsLegal ∧
    seen (exec .encBps s) = ok [1,0,1,0,0,1,0,1] 0 [] :=
  ⟨started 0x6 [0,0,1,0], started_Started _ _ (by decide), by decide, by decide⟩

/-- Section 2.4: nine ones are padded to 16. -/
theorem test_witness_DecNrzDelivers : ∃ s : State, s.Started ∧ s.LevelsLegal .nrz ∧
    seen (exec .decNrz s) = ok [1,1,1,1,1,1,1,1,1,0,0,0,0,0,0,0] 7 [PAD 7] :=
  ⟨started 0x8 [1,1,1,1,1,1,1,1,1], started_Started _ _ (by decide), by decide, by decide⟩
theorem test_witness_DecNrziDelivers : ∃ s : State, s.Started ∧ s.LevelsLegal .nrzi ∧
    seen (exec .decNrzi s) = ok [1,0,1,0,0,0,0,0] 5 [PAD 5] :=
  ⟨started 0x9 [1,0,0,1], started_Started _ _ (by decide), by decide, by decide⟩
theorem test_witness_DecAmiDelivers : ∃ s : State, s.Started ∧ s.LevelsLegal .ami ∧
    seen (exec .decAmi s) = ok [1,1,0,1,0,0,0,0] 4 [PAD 4] :=
  ⟨started 0xA [1,1,0,-1], started_Started _ _ (by decide), by decide, by decide⟩
theorem test_witness_DecManDelivers : ∃ s : State, s.Started ∧ s.LevelsLegal .man ∧
    seen (exec .decMan s) = ok [1,1,1,0,0,0,0,0] 4 [IT 1, IT 2, PAD 4] :=
  ⟨started 0xB [1,0,1,1,0,0,0,1], started_Started _ _ (by decide), by decide, by decide⟩
theorem test_witness_DecDmanDelivers : ∃ s : State, s.Started ∧ s.LevelsLegal .dman ∧
    seen (exec .decDman s) = ok [1,0,1,0,0,0,0,0] 5 [PAD 5] :=
  ⟨started 0xC [1,0,1,0,0,1,0,1,1], started_Started _ _ (by decide), by decide, by decide⟩
theorem test_witness_DecBpmDelivers : ∃ s : State, s.Started ∧ s.LevelsLegal .bpm ∧
    seen (exec .decBpm s) = ok [1,1,0,1,0,0,0,0] 4 [PAD 4] :=
  ⟨started 0xD [1,0,1,0,0,1,0,1], started_Started _ _ (by decide), by decide, by decide⟩
theorem test_witness_DecBpsDelivers : ∃ s : State, s.Started ∧ s.LevelsLegal .bps ∧
    seen (exec .decBps s) = ok [1,1,0,1,0,0,0,0] 4 [PAD 4] :=
  ⟨started 0xE [0,1,1,0,1,0,0,1], started_Started _ _ (by decide), by decide, by decide⟩

/-! Corner cases: the empty input, a single level, the lost first sample -/

theorem test_encAmi_first_mark : seen (exec .encAmi (started 0x2 [1])) = ok [-1] 0 [] := by decide
theorem test_encBps_first_symbol : seen (exec .encBps (started 0x6 [0])) = ok [1,0] 0 [] := by decide
theorem test_decNrz_empty : seen (exec .decNrz (started 0x8 [])) = ok [] 0 [] := by decide
theorem test_decNrzi_one_level : seen (exec .decNrzi (started 0x9 [0])) = ok [] 0 [] := by decide
theorem test_decMan_first_invalid : seen (exec .decMan (started 0xB [1,1])) =
    ok [0,0,0,0,0,0,0,0] 7 [IT 0, PAD 7] := by decide
theorem test_decDman_one_symbol : seen (exec .decDman (started 0xC [0,1,0])) = ok [] 0 [] := by decide
theorem test_decBpm_undetected : seen (exec .decBpm (started 0xD [1,1,1,1])) =
    ok [1,0,0,0,0,0,0,0] 6 [PAD 6] := by decide

/-! Errors (section 3) -/

/-- A reserved word wins over bad elements. -/
theorem test_reserved_first : seen (exec .reservedEnc7 (started 0x7 [-1,-2])) =
    some { err := .invalidScheme, out := [], pad := 0, warns := [] } := by decide
/-- `ENC.AMI` takes bits, not levels. -/
theorem test_encAmi_bit_error : seen (exec .encAmi (started 0x2 [1,-1])) =
    some { err := .invalidBit, out := [], pad := 0, warns := [] } := by decide
/-- The skipped first sample is still validated. -/
theorem test_decNrzi_level_error : seen (exec .decNrzi (started 0x9 [-1,0,1])) =
    some { err := .invalidLevel, out := [], pad := 0, warns := [] } := by decide
/-- The ignored odd last level is still validated. -/
theorem test_decMan_level_error : seen (exec .decMan (started 0xB [0,1,-1])) =
    some { err := .invalidLevel, out := [], pad := 0, warns := [] } := by decide

/-! The noise unit (section 4) -/

theorem test_noise_ami_p1 : noiseSeen (exec (.noise (.known .ami)) (noisy [-1,1,0,-1] 1)) =
    some ([0b00#2, 0b00#2, 0b01#2, 0b00#2], .noError) := by decide +kernel
theorem test_noise_nrz_p0 : noiseSeen (exec (.noise (.known .nrz)) (noisy [1,0,1,1] 0)) =
    some ([0b01#2, 0b00#2, 0b01#2, 0b01#2], .noError) := by decide +kernel

/-! Witnesses for the other statements with hypotheses -/

theorem test_witness_EngineRunsTheLatchedCommand :
    (∃ s : State, s.busy = true ∧ s.events = [.engine, .reset]) ∧ ∃ s : State, s.busy = true ∧ s.events = [] :=
  ⟨⟨{ started 0x3 [1] with events := [.engine, .reset] }, rfl, rfl⟩, ⟨started 0x3 [1], rfl, rfl⟩⟩

theorem test_witness_NoiseUnitTakesItsCommandAndInputs :
    (∃ s : State, s.events = [.noise 7]) ∧ ∀ w ∈ [HostWrite.nin 61 3, .nlen 63, .nprob (-1)],
      ∃ s : State, s.cfg.hasNoiseUnit = true ∧ s.events = [.write w] ∧ 61 < s.cfg.noiseCap := ⟨
  ⟨{ loaded [] with events := [.noise 7] }, rfl⟩,
  fun w _ => ⟨{ loaded [] with events := [.write w] }, rfl, rfl, by decide +revert⟩⟩

theorem test_witness_PlacedWordRunsNext : (∃ nbits : Nat, 4 ≤ nbits) ∧ ∃ nbits : Nat, nbits = 3 :=
  ⟨⟨4, by decide⟩, ⟨3, rfl⟩⟩

/-- The longest input the instance takes (`ILEN` = `MAX_IN`), idle and busy. -/
theorem test_witness_CmdWriteStartsATransaction :
    (∃ s : State, s.events = [.write (.reg 0 0x1F)] ∧ s.busy = false ∧ s.ilen = s.cfg.maxIn) ∧
    ∃ s : State, s.events = [.write (.reg 0 0)] ∧ s.busy = true :=
  ⟨⟨{ loaded [] with ilen := 31, events := [.write (.reg 0 0x1F)] }, rfl, rfl, rfl⟩,
   ⟨{ started 0x1 [1] with events := [.write (.reg 0 0)] }, rfl, rfl⟩⟩

/-- One more than the longest input. -/
theorem test_witness_ReservedLengthIsRefused :
    (∃ s : State, s.events = [.write (.reg 0 3)] ∧ s.busy = false ∧ s.cfg.maxIn < s.ilen) ∧
    ∃ s : State, s.cfg.maxIn < s.n :=
  ⟨⟨{ loaded [] with ilen := 32, events := [.write (.reg 0 3)] }, rfl, rfl, by decide⟩,
   ⟨{ started 0x1 [] with n := 32 }, by decide⟩⟩

theorem test_witness_BusyIgnoresHostWrites : ∀ w ∈ [HostWrite.reg 0 1, .reg 1 2, .reg 5 0, .ibuf 30 3, .obuf 61 0, .wbuf 15 0],
    ∃ s : State, s.busy = true ∧ w.inCore s.cfg = true ∧ s.events = [.write w] := fun w h =>
  ⟨{ started 0x1 [1] with events := [.write w] }, rfl, by revert w h; decide, rfl⟩

/-- Each clause at its last place: `IBUF[30]`, `ILEN` above its width, `CMD`, registers 2 and 5, `OBUF[61]`,
`WBUF[15]`. -/
theorem test_witness_IdleHostWrites : ∀ w ∈ [HostWrite.ibuf 30 3, .reg 1 64, .reg 0 9, .reg 2 1, .reg 5 1, .obuf 61 1, .wbuf 15 1],
    ∃ s : State, s.busy = false ∧ s.events = [.write w] ∧ s.ilen ≤ s.cfg.maxIn ∧
      w.inCore s.cfg = true := fun w h =>
  ⟨{ loaded [1] with events := [.write w] }, rfl, rfl, by decide +revert, by revert w h; decide⟩

/-- Each clause at the first place that does not exist. -/
theorem test_witness_MissingPlacesFault :
    (∀ w ∈ [HostWrite.reg 6 0, .ibuf 31 0, .obuf 62 0, .wbuf 16 0, .nin 62 0],
      ∃ s : State, s.events = [.write w] ∧ w.inCore s.cfg = false ∧ s.cfg.hasNoiseUnit = true) ∧
    ∃ s : State, s.cfg.maxIn = 31 ∧ s.cfg.maxOut = 62 ∧ s.cfg.maxW = 16 ∧ s.cfg.noiseCap = 62 :=
  ⟨fun w h => ⟨{ loaded [] with events := [.write w] }, rfl, by revert w h; decide, by decide +revert⟩,
   loaded [], by decide, by decide, by decide, by decide⟩

theorem test_witness_IbufReadsWhatWasWritten : ∃ s : State, s.busy = false ∧ 30 < s.cfg.maxIn ∧
    s.events = [.write (.ibuf 30 2)] := ⟨{ loaded [] with events := [.write (.ibuf 30 2)] }, rfl, by decide, rfl⟩

/-- Every error code, and the last element of every buffer specified: `IBUF[30]`, `OBUF[61]`, `WBUF[15]`, `NOUT[61]`. -/
theorem test_witness_HostReadsReturnStoredValues : ∀ e : ErrCode, ∃ s : State, s.busy = false ∧ s.err = e ∧
    (30 < s.cfg.maxIn ∧ s.ibuf.read 30 = some 0b11#2) ∧ (61 < s.cfg.maxOut ∧ s.obuf[61]? = some 0b01#2) ∧
    (15 < s.cfg.maxW ∧ s.wbuf[15]? = some (PAD 7) ∧ (PAD 7).val < 2 ^ s.cfg.lenW) ∧
    s.cfg.hasNoiseUnit = true ∧ 61 < s.cfg.noiseCap ∧ s.nout[61]? = some 0b01#2 := by
  intro e
  cases e <;> exact ⟨{ loaded (List.replicate 31 (-1)) with
      err := _, obuf := List.replicate 62 1, wbuf := List.replicate 16 (PAD 7), nout := List.replicate 62 1 },
    rfl, rfl, by decide, by decide, by decide, rfl, by decide, by decide⟩

/-- Section 6.1: `PAD(5)` is `1 000101` when `LEN_W` = 6, as the host reads it. -/
theorem test_read_record : (hostReadWbuf { loaded [] with wbuf := [IT 2, PAD 5] } 1).toOption = some 0b1000101 := by
  decide

theorem test_witness_BusyRegisterReads : ∃ s : State, s.busy = true ∧ 30 < s.cfg.maxIn :=
  ⟨started 0x1 [1], rfl, by decide⟩

/-- Reset in the middle of a transaction. -/
theorem test_witness_ResetGivesTheIdleState : ∃ s : State, s.busy = true ∧ s.events = [.reset] :=
  ⟨{ started 0x1 [1] with events := [.reset] }, rfl, rfl⟩

theorem test_witness_OnlyACmdWriteLeavesIdle : (∃ s : State, s.busy = false ∧ s.events = []) ∧
    ∃ s : State, s.busy = false ∧ ∃ t, step s = .next t ∧ t.busy = true :=
  ⟨⟨loaded [], rfl, rfl⟩, ⟨{ loaded [1] with events := [.write (.reg 0 1)] }, rfl, exists_next (by decide)⟩⟩

/-- An illegal last element of the longest input, for encode and decode. -/
theorem test_witness_ErrorEntryChangesFiveFields :
    (∃ s : State, s.n = s.cfg.maxIn ∧ ¬ s.BitsLegal) ∧
    ∃ s : State, s.n = s.cfg.maxIn ∧ ¬ s.LevelsLegal .ami ∧ ¬ s.LevelsLegal .bps :=
  ⟨⟨started 0x0 (List.replicate 30 0 ++ [-1]), by decide, by decide⟩,
   ⟨started 0xA (List.replicate 30 0 ++ [-2]), by decide, by decide, by decide⟩⟩

theorem test_witness_OnlyReservedWordsRaiseSchemeError : ∃ s : State,
    ∃ t, exec (coreInstr false (.known .nrz)) s = .next t ∧ t.err = .invalidBit :=
  ⟨started 0x0 [-1], exists_next (by decide)⟩

theorem test_witness_InvalidBitExactlyOnIllegalBits : ∃ s : State, s.n ≤ s.cfg.maxIn ∧ s.input 1 = -2 ∧ s.n = 2 :=
  ⟨started 0x0 [0, -2], by decide, by decide, by decide⟩

theorem test_witness_InvalidLevelExactlyOnIllegalLevels : ∃ s : State, s.n ≤ s.cfg.maxIn ∧ s.input 1 = -1 ∧ s.n = 2 :=
  ⟨started 0x8 [0, -1], by decide, by decide, by decide⟩

/-- The longest input, and the empty one. -/
theorem test_witness_ErrorPriority : (∃ s : State, s.n ≤ s.cfg.maxIn ∧ s.n = 31) ∧ ∃ s : State, s.n ≤ s.cfg.maxIn ∧ s.n = 0 :=
  ⟨⟨started 0x7 (List.replicate 31 (-2)), by decide, by decide⟩, ⟨started 0xF [], by decide, by decide⟩⟩

/-- Both clauses: an AMI input with every level, and one with a level outside the binary alphabet; `NLEN` at the
capacity is allowed. -/
theorem test_witness_NoiseFlipsUnderTheMask :
    (∃ s : State, s.cfg.hasNoiseUnit = true ∧ 0 ≤ s.nprob ∧ s.nprob ≤ 1 ∧ s.nlen ≤ s.cfg.noiseCap ∧
      ∀ i < s.nlen, s.noiseInput i ∈ levelAlphabet .ami) ∧
    (∃ s : State, s.cfg.hasNoiseUnit = true ∧ 0 ≤ s.nprob ∧ s.nprob ≤ 1 ∧ s.nlen ≤ s.cfg.noiseCap ∧
      ∃ i < s.nlen, s.noiseInput i ∉ levelAlphabet .nrz) ∧
    ∃ s : State, s.nlen = s.cfg.noiseCap ∧ ∀ i < s.nlen, s.noiseInput i ∈ levelAlphabet .man :=
  ⟨⟨noisy [-1,1,0] (1/2), rfl, by norm_num [noisy], by norm_num [noisy], by decide, by decide⟩,
   ⟨noisy [0,-1] 0, rfl, by norm_num [noisy], by norm_num [noisy], by decide, by decide⟩,
   ⟨noisy (List.replicate 62 1) 1, by decide, by decide⟩⟩

theorem test_witness_NoiseAtTheExtremes :
    (∃ s : State, s.nprob = 0 ∧ 0 < s.nlen ∧ ∃ t, exec (.noise (.known .nrz)) s = .next t ∧ t.nout = [0b01#2]) ∧
    ∃ s : State, s.nprob = 1 ∧ 0 < s.nlen ∧ ∃ t, exec (.noise (.known .ami)) s = .next t ∧ t.nout = [0b00#2] :=
  ⟨⟨noisy [1] 0, rfl, by decide, exists_next (by decide +kernel)⟩,
   ⟨noisy [-1] 1, rfl, by decide, exists_next (by decide +kernel)⟩⟩

theorem test_witness_NoiseErrors : (∃ s : State, s.cfg.hasNoiseUnit = true ∧ s.nprob < 0) ∧
    (∃ s : State, s.cfg.hasNoiseUnit = true ∧ 1 < s.nprob) ∧
    ∀ e : NoiseErr, ∃ s : State, s.cfg.hasNoiseUnit = true ∧ s.nstatus = e :=
  ⟨⟨noisy [] (-1/2), rfl, by norm_num [noisy]⟩, ⟨noisy [] (3/2), rfl, by norm_num [noisy]⟩,
   fun e => ⟨(noisy [] 0).noiseRaise e, rfl, rfl⟩⟩

theorem test_witness_NoiseStops : (∃ s : State, s.cfg.hasNoiseUnit = false) ∧
    ∃ s : State, s.cfg.hasNoiseUnit = true ∧ 0 ≤ s.nprob ∧ s.nprob ≤ 1 ∧ s.nlen = s.cfg.noiseCap + 1 :=
  ⟨⟨quiet, rfl⟩, ⟨noisy (List.replicate 63 1) 1, rfl, by norm_num [noisy], by norm_num [noisy], by decide⟩⟩

theorem test_witness_NoiseStaysInTheAlphabet : ∃ s t : State, exec (.noise (.known .ami)) s = .next t ∧
    t.nstatus = .noError ∧ t.nout = [0b01#2] := ⟨noisy [0] 1, exists_next (by decide +kernel)⟩

theorem test_witness_NoiseAndCoreAreSeparate :
    (∃ s s' t : State, s.sameCore s' ∧ s ≠ s' ∧ exec (coreInstr true .reserved) s = .next t) ∧
    ∃ s s' t : State, s.sameNoise s' ∧ s ≠ s' ∧ exec (.noise .reserved) s = .next t :=
  ⟨⟨started 0xF [1], { started 0xF [1] with nlen := 2 }, (started 0xF [1]).raise .invalidScheme, rfl, by decide, rfl⟩,
   ⟨loaded [1], started 0xF [1], (loaded [1]).noiseRaise .invalidScheme, ⟨rfl, rfl, rfl, rfl, rfl, rfl, rfl, rfl, rfl⟩,
    by decide, rfl⟩⟩

theorem test_witness_ResultCounts : (∃ s : State, s.Started ∧ s.BitsLegal ∧ s.n = s.cfg.maxIn) ∧
    ∃ s : State, s.Started ∧ s.LevelsLegal .man ∧ s.n = s.cfg.maxIn :=
  ⟨⟨started 0x4 (List.replicate 31 1), started_Started _ _ (by decide), by decide, by decide⟩,
   ⟨started 0xB (List.replicate 31 1), started_Started _ _ (by decide), by decide, by decide⟩⟩

theorem test_witness_EncodersAreCausal : ∃ s s' : State, s.Started ∧ s'.Started ∧ s.BitsLegal ∧
    s'.inputSeq = s.inputSeq.take 1 ∧ ∃ t, exec (coreInstr false (.known .nrz)) s = .next t ∧ t.olen = 2 :=
  ⟨started 0x0 [1,0], started 0x0 [1], started_Started _ _ (by decide), started_Started _ _ (by decide), by decide,
    by decide, exists_next (by decide)⟩

theorem test_witness_EveryEncodedSymbolHasAMidpointTransition : ∀ S ∈ [Scheme.man, .dman, .bpm, .bps],
    levelsPerBit S = 2 ∧ ∃ s : State, s.Started ∧ s.BitsLegal ∧ s.n = 2 := fun S h =>
  ⟨by revert S h; decide, started 0x3 [1,0], started_Started _ _ (by decide), by decide, by decide⟩

/-- S6 of section 1: `[1,1,0,1]` in NRZI is `[1,0,0,1]`. -/
theorem test_witness_RoundTripRecoversTheBits : ∃ s s' : State, s.Started ∧ s.BitsLegal ∧ s'.Started ∧
    ∃ t, exec (coreInstr false (.known .nrzi)) s = .next t ∧ s'.inputSeq = t.output :=
  ⟨started 0x1 [1,1,0,1], started 0x9 [1,0,0,1], started_Started _ _ (by decide), by decide,
    started_Started _ _ (by decide), exists_next (by decide)⟩

/-- Section 2.2: `[1,1,0,1]` in DMAN, and in BPM, is `[1,0,1,0,0,1,0,1]`. -/
theorem test_witness_DmanAndBpmCrossDecode : ∃ s s' : State, s.Started ∧ s.BitsLegal ∧ s'.Started ∧
    ∃ t, exec .encDman s = .next t ∧ s'.inputSeq = t.output :=
  ⟨started 0x4 [1,1,0,1], started 0xD [1,0,1,0,0,1,0,1], started_Started _ _ (by decide), by decide,
    started_Started _ _ (by decide), exists_next (by decide)⟩

theorem test_witness_BpsComplementsBpm : ∃ s : State, s.Started ∧ s.LevelsLegal .bpm ∧ s.n = 4 :=
  ⟨started 0xD [0,0,0,0], started_Started _ _ (by decide), by decide, by decide⟩

theorem test_witness_DmanIsTheTailOfBpm : ∃ s : State, s.Started ∧ s.LevelsLegal .bpm ∧
    (∀ k < s.n / 2, s.input (2 * k + 1) = 1 - s.input (2 * k)) ∧ s.n / 2 = 4 :=
  ⟨started 0xD [1,0,1,0,0,1,0,1], started_Started _ _ (by decide), by decide, by decide, by decide⟩

theorem test_witness_OddTrailingLevelIsIgnored : ∃ s s' : State, levelsPerBit .man = 2 ∧ s.Started ∧ s'.Started ∧
    s.n % 2 = 1 ∧ s.LevelsLegal .man ∧ s'.inputSeq = s.inputSeq.dropLast :=
  ⟨started 0xB [1,0,1], started 0xB [1,0], rfl, started_Started _ _ (by decide), started_Started _ _ (by decide),
    by decide, by decide, by decide⟩

/-- Both padding clauses: eight levels need none, nine do. -/
theorem test_witness_PaddingIsCompleteAndReported : (∃ s : State, s.Started ∧ s.LevelsLegal .nrz ∧ s.n = 8) ∧
    ∃ s : State, s.Started ∧ s.LevelsLegal .nrz ∧ s.BitsLegal ∧ s.n = 9 :=
  ⟨⟨started 0x8 (List.replicate 8 1), started_Started _ _ (by decide), by decide, by decide⟩,
   ⟨started 0x8 (List.replicate 9 1), started_Started _ _ (by decide), by decide, by decide, by decide⟩⟩

theorem test_witness_OnlyManchesterDetectsInvalidTransitions : ∃ (S : Scheme) (s : State), S ≠ .man ∧ s.Started ∧
    s.LevelsLegal S ∧ s.inputSeq = [0,0,0,0] :=
  ⟨.bpm, started 0xD [0,0,0,0], by decide, started_Started _ _ (by decide), by decide, by decide⟩

theorem test_witness_ResultsDependOnTheInputAlone : ∃ s s' t t' : State, s.Started ∧ s'.Started ∧
    s.inputSeq = s'.inputSeq ∧ s ≠ s' ∧ exec (coreInstr false .reserved) s = .next t ∧
    exec (coreInstr false .reserved) s' = .next t' :=
  ⟨started 0x7 [1], { started 0x7 [1] with obuf := [0b01#2], olen := 1 }, (started 0x7 [1]).raise .invalidScheme,
    ({ started 0x7 [1] with obuf := [0b01#2], olen := 1 } : State).raise .invalidScheme,
    started_Started _ _ (by decide), ⟨rfl, rfl, rfl, by decide, rfl, rfl, rfl, rfl, rfl, rfl, rfl⟩,
    by decide, by decide, rfl, rfl⟩

theorem test_witness_TransactionComputesTheCodec : ∃ s : State, s.busy = false ∧ s.ilen = s.cfg.maxIn ∧
    s.events = [.write (.reg 0 0xB), .engine] :=
  ⟨{ loaded (List.replicate 31 1) with events := [.write (.reg 0 0xB), .engine] }, rfl, by decide, rfl⟩

/-- An instruction that goes on, and one that ends in an error. -/
theorem test_witness_FrameOfEveryOperation : ∃ s : State, (∃ t, exec .encNrz s = .next t ∧ t.err = .noError) ∧
    ∃ t, exec .reservedDec7 s = .next t ∧ t.err ≠ .noError :=
  ⟨started 0x0 [1], exists_next (by decide), exists_next (by decide)⟩

theorem test_witness_InputIsImmutable : ∃ s : State, s.ibuf ≠ [] ∧ ∃ t, exec .encNrz s = .next t ∧ t.olen = 1 :=
  ⟨started 0x0 [1], by decide, exists_next (by decide)⟩

theorem test_witness_OnlyAmiEncodingWritesMinusOne : ∃ s : State, s.Started ∧ s.BitsLegal ∧ s.LevelsLegal .ami ∧
    s.n = 2 := ⟨started 0x2 [1,0], started_Started _ _ (by decide), by decide, by decide, by decide⟩

theorem test_witness_EveryTransactionEnds : ∃ (s : State) (ws : List HostWrite), s.Started ∧
    (∀ w ∈ ws, w.inCore s.cfg = true) ∧ s.events = ws.map .write ∧ ws.length = 2 :=
  ⟨{ started 0x1 [1] with events := [.write (.reg 0 7), .write (.ibuf 30 2)] }, [.reg 0 7, .ibuf 30 2],
    ⟨rfl, rfl, rfl, by decide, rfl, rfl, rfl, rfl, rfl, rfl, rfl⟩, by decide, rfl, rfl⟩

theorem test_witness_ParametersNeverChange : ∃ s t : State, step s = .next t ∧ t.cmd = 5 :=
  ⟨{ loaded [1] with events := [.write (.reg 0 5)] }, exists_next (by decide)⟩

/-- A started transaction meets the invariant, and its next step goes on. -/
theorem test_witness_EveryStepKeepsTheInvariant : ∃ s t : State, s.Inv ∧ s.busy = true ∧ step s = .next t := by
  refine ⟨started 0x7 [1,0], (started 0x7 [1,0]).raise .invalidScheme, ?_, rfl, rfl⟩
  constructor <;> first | decide | exact fun _ => started_Started _ _ (by decide)

theorem test_witness_PowerOnMeetsTheInvariant : ∃ cfg : Config, cfg.Ok ∧ cfg.maxIn = 8 ∧ cfg.hasNoiseUnit = false :=
  ⟨{ maxIn := 8, hasNoiseUnit := false, noiseCap := 0 }, by decide, rfl, rfl⟩

end Sys2Proof.Machine.Tests
end

section
/-! PROOFS. O53 and O59: what an operation leaves unchanged of the command and its input, the invariant across each
kind of move, and the two statements assembled from these. -/

namespace Sys2Proof.Machine

variable {s t : State}

/-! What no operation changes (R64) -/

/-- The command, the input with its length, and what is about to happen are the same in both states. -/
structure State.SameInput (s t : State) : Prop where
  cmd : t.cmd = s.cmd
  ilen : t.ilen = s.ilen
  ibuf : t.ibuf = s.ibuf
  era : t.era = s.era
  events : t.events = s.events

theorem State.SameInput.refl (s : State) : s.SameInput s := ⟨rfl, rfl, rfl, rfl, rfl⟩

theorem State.SameInput.trans {u : State} (h : s.SameInput t) (h' : t.SameInput u) : s.SameInput u :=
  ⟨h'.cmd.trans h.cmd, h'.ilen.trans h.ilen, h'.ibuf.trans h.ibuf, h'.era.trans h.era, h'.events.trans h.events⟩

theorem State.SameInput.readIbuf (h : s.SameInput t) : t.readIbuf = s.readIbuf := by
  funext i; rw [State.readIbuf, State.readIbuf, h.ibuf, h.era]

theorem respects_sameInput : Respects State.SameInput where
  refl := .refl
  trans _ _ _ := .trans
  emit _ _ := ⟨rfl, rfl, rfl, rfl, rfl⟩
  warn _ _ _ := ⟨rfl, rfl, rfl, rfl, rfl⟩
  advance _ _ := ⟨rfl, rfl, rfl, rfl, rfl⟩
  finish _ _ := ⟨rfl, rfl, rfl, rfl, rfl⟩
  raise _ _ := ⟨rfl, rfl, rfl, rfl, rfl⟩

/-- What a `NOISE` that goes on leaves behind: a status code, or a new output. -/
theorem noise_next {sid : SchemeId} (hx : exec (.noise sid) s = .next t) :
    (∃ e, t = s.noiseRaise e) ∨ ∃ S, s.nlen ≤ s.cfg.noiseCap ∧ t = s.noiseFinish S := by
  rcases noise_cases sid s with h | h | h | ⟨-, h⟩ | ⟨-, -, h⟩ | ⟨S, -, -, -, -, hn, -, h⟩ <;> rw [h] at hx
  · cases hx
  · cases hx
  · cases hx
  · exact .inl ⟨_, (Host.Outcome.next.inj hx).symm⟩
  · exact .inl ⟨_, (Host.Outcome.next.inj hx).symm⟩
  · exact .inr ⟨S, hn, (Host.Outcome.next.inj hx).symm⟩

theorem exec_sameInput {i : Instr} (hx : exec i s = .next t) : s.SameInput t := by
  refine respects_sameInput.exec i ?_ ?_ ?_ ?_ ?_ hx
  · exact fun _ _ _ => ⟨rfl, rfl, rfl, rfl, rfl⟩
  · exact fun _ _ => ⟨rfl, rfl, rfl, rfl, rfl⟩
  · exact fun _ _ _ => ⟨rfl, rfl, rfl, rfl, rfl⟩
  · exact fun _ _ => ⟨rfl, rfl, rfl, rfl, rfl⟩
  · rintro sid rfl t hx
    obtain ⟨e, rfl⟩ | ⟨S, -, rfl⟩ := noise_next hx <;> exact ⟨rfl, rfl, rfl, rfl, rfl⟩

/-! The two steps of a transaction (R91, R95) -/

/-- R91: a start gives the starting values R21 asks for. -/
theorem start_started (c : CmdWord) (hi : s.ilen ≤ s.cfg.maxIn) : (s.start c).Started :=
  ⟨rfl, rfl, rfl, hi, rfl, rfl, rfl, rfl, rfl, rfl, rfl⟩

theorem step_cmdWrite {v : Nat} {rest : List Event} (hb : s.busy = false) (hi : s.ilen ≤ s.cfg.maxIn)
    (he : s.events = .write (.reg 0 v) :: rest) :
    step s = .next ({ s with events := rest }.start (BitVec.ofNat 4 v)) := by
  simp [step, fetch, he, hostWrite, State.writeReg, State.writeCmd, hb, Nat.not_lt.2 hi]

theorem step_engine {rest : List Event} (hb : s.busy = true) (he : s.events = .engine :: rest) :
    step s = exec (decode (.c s.lcmd)) { s with events := rest } := by
  simp [step, fetch, he, engineMove, hb]

/-- A write of `CMD` and the engine's move run the command on the started state. -/
theorem runSteps_transaction {v : Nat} {rest : List Event} (hb : s.busy = false) (hi : s.ilen ≤ s.cfg.maxIn)
    (he : s.events = .write (.reg 0 v) :: .engine :: rest) (hx : exec (decode (.c (BitVec.ofNat 4 v)))
      ({ s with events := rest }.start (BitVec.ofNat 4 v)) = .next t) : runSteps 2 s = .next t := by
  have h : step ({ s with events := .engine :: rest }.start (BitVec.ofNat 4 v)) = .next t := by
    rw [step_engine rfl rfl]
    exact hx
  simp only [runSteps, step_cmdWrite hb hi he, h]

/-- Settles O53: the started state meets `Started`, so `core_results` gives the results, and no operation changes the
command, the input or what is about to happen. -/
theorem transactionComputesTheCodec : Obligations.TransactionComputesTheCodec := by
  intro s v rest hb hi he
  obtain ⟨t, hx, hr, ht⟩ := core_results (s := { s with events := rest }.start (BitVec.ofNat 4 v))
    (dirField (BitVec.ofNat 4 v)) (SchemeId.ofWord (schemeField (BitVec.ofNat 4 v))) (start_started (s := { s with events := rest }) _ hi)
  have hk := exec_sameInput hx
  exact ⟨t, runSteps_transaction hb hi he hx, ht, hr, hk.cmd, hk.ilen, hk.ibuf, hk.readIbuf, hk.events⟩

/-! The invariant: moves that leave the fields of CORE alone -/

/-- What only touches the noise unit and what is about to happen keeps the invariant, when `NIN` stays canonical and
`NOUT` within its capacity. -/
theorem State.Inv.of_sameCore (h : s.Inv) (hc : s.sameCore t) (hnin : Memory.wf t.cfg.noiseCap t.nin)
    (hnout : t.nout.length ≤ t.cfg.noiseCap) : t.Inv := by
  rw [State.sameCore] at hc
  rw [hc] at hnin hnout ⊢
  exact { h with nin := hnin, nout := hnout, started := fun hb => { h.started hb with } }

theorem State.Inv.withEvents (h : s.Inv) (rest : List Event) : ({ s with events := rest } : State).Inv :=
  h.of_sameCore rfl h.nin h.nout

theorem noise_inv {sid : SchemeId} (h : s.Inv) (hx : exec (.noise sid) s = .next t) : t.Inv := by
  obtain ⟨e, rfl⟩ | ⟨S, hn, rfl⟩ := noise_next hx
  · exact h.of_sameCore rfl h.nin h.nout
  · exact h.of_sameCore rfl h.nin (by simpa [State.noiseFinish] using hn)

/-! The invariant: what the operations of CORE deliver -/

/-- R7: a count up to `MAX_OUT` fits `LEN_W` bits. -/
theorem lt_two_pow_lenW {c : Config} {k : Nat} (h : k ≤ c.maxOut) : k < 2 ^ c.lenW :=
  Nat.lt_of_le_of_lt h Nat.lt_log2_self

theorem frameBits_pos : 0 < frameBits := by decide

theorem State.Inv.raise (h : s.Inv) (e : ErrCode) : (s.raise e).Inv :=
  { h with
    olen := Nat.zero_le _, wcnt := Nat.zero_le _, padcnt := frameBits_pos, padding := Nat.le_refl _
    errors := fun _ => ⟨rfl, rfl, rfl⟩, started := nofun }

/-- R97: a delivery within the capacities keeps the invariant. -/
theorem State.Inv.delivered (h : s.Inv) {out : List Int} {pad : Nat} {ws : List Warning} {w : Work}
    (hout : out.length ≤ s.cfg.maxOut) (hrange : ∀ v ∈ out, v = 0 ∨ v = 1 ∨ v = -1) (hpad : pad < frameBits)
    (hpout : pad ≤ out.length) (hws : ws.length ≤ s.cfg.maxW) (hvals : ∀ x ∈ ws, x.val < 2 ^ s.cfg.lenW)
    (hidx : w.idx ≤ s.n) : ((s.delivered out pad ws).withWork w).Inv :=
  { h with
    olen := by simp [State.delivered, State.withWork]
    obuf := by simpa [State.delivered, State.withWork] using hout
    wcnt := Nat.le_refl _, wbuf := hws, vals := hvals
    elems := by
      simp only [State.delivered, State.withWork, List.mem_map]
      rintro e ⟨v, hv, rfl⟩
      have := hrange v hv
      exact enc2_ne_illegal (by omega) (by omega)
    padcnt := hpad, padding := hpout, errors := fun he => absurd rfl he
    idx := hidx, optr := hout, wptr := hws, started := nofun }

theorem levelsPerBit_le (S : Scheme) : levelsPerBit S ≤ 2 := by cases S <;> decide

theorem enc_inv (S : Scheme) (h : s.Inv) (hs : s.Started) (hl : s.BitsLegal)
    (hx : exec (coreInstr false (.known S)) s = .next t) : t.Inv := by
  obtain ⟨w, hw, hd⟩ := enc_delivers S hs hl
  obtain rfl := Host.Outcome.next.inj (hd.symm.trans hx)
  refine h.delivered ?_ ?_ (by decide) (Nat.zero_le _) (Nat.zero_le _) nofun hw.le
  · rw [encFn_length, inputSeq_length]
    exact Nat.mul_le_mul (levelsPerBit_le S) h.n
  · intro v hv
    have := encFn_range S _ (bitsLegal_iff.1 hl) v hv
    tauto

/-- R8: `MAX_IN` >= 8 leaves room in `OBUF` for the padding. -/
theorem padded_le_maxOut {c : Config} (hc : c.Ok) {r : Nat} (hr : r ≤ c.maxIn) :
    r + (8 - r % 8) % 8 ≤ c.maxOut := by
  have hmax : 8 ≤ c.maxIn := hc
  rw [Config.maxOut]; omega

/-- R130: a decode with at most one raw bit a level and one `IT` record a symbol keeps the invariant. -/
theorem State.Inv.decoded (h : s.Inv) {raw : List Int} {ks : List Nat} {w : Work} (hraw : raw.length ≤ s.n)
    (hrange : ∀ v ∈ raw, v = 0 ∨ v = 1) (hlen : ks.length ≤ s.n / 2) (hks : ∀ k ∈ ks, k < s.n / 2)
    (hidx : w.idx ≤ s.n) : ((s.decoded raw ks).withWork w).Inv := by
  have hmax : 8 ≤ s.cfg.maxIn := h.cfg
  have hn : s.n ≤ s.cfg.maxIn := h.n
  refine h.delivered ?_ ?_ (Nat.mod_lt _ frameBits_pos) ?_ ?_ ?_ hidx
  · rw [List.length_append, List.length_replicate]
    exact padded_le_maxOut h.cfg (hraw.trans hn)
  · intro v hv
    rcases List.mem_append.1 hv with hv | hv
    · have := hrange v hv
      tauto
    · exact .inl (List.mem_replicate.1 hv).2
  · rw [List.length_append, List.length_replicate]
    exact Nat.le_add_left _ _
  · rw [List.length_append, List.length_map, Config.maxW]
    split <;> simp only [List.length_nil, List.length_singleton] <;> omega
  · intro x hx
    refine lt_two_pow_lenW ?_
    rw [Config.maxOut]
    rcases List.mem_append.1 hx with hx | hx
    · obtain ⟨k, hk, rfl⟩ := List.mem_map.1 hx
      have := hks k hk
      show k ≤ _
      omega
    · split at hx
      · cases hx
      · obtain rfl := List.mem_singleton.1 hx
        show (8 - _ % 8) % 8 ≤ _
        omega

/-- R139: no decoder gives more raw bits than there are levels. -/
theorem rawCount_le (n : Nat) (S : Scheme) : rawCount n S ≤ n := by
  cases S <;> simp only [rawCount] <;> omega

/-- R134: a reported symbol is one of the floor(`n` / 2) whole symbols. -/
theorem lt_of_mem_invalidOf {S : Scheme} {L : List Int} {k : Nat} (h : k ∈ invalidOf S L) : k < L.length / 2 := by
  unfold invalidOf at h
  split at h
  · exact List.mem_range.1 (List.mem_of_mem_filter h)
  · cases h

/-- R134: each whole symbol is reported at most once. -/
theorem invalidOf_length_le (S : Scheme) (L : List Int) : (invalidOf S L).length ≤ L.length / 2 := by
  unfold invalidOf
  split
  · exact (List.length_filter_le _ _).trans_eq List.length_range
  · exact Nat.zero_le _

theorem dec_inv (S : Scheme) (h : s.Inv) (hs : s.Started) (hl : s.LevelsLegal S)
    (hx : exec (coreInstr true (.known S)) s = .next t) : t.Inv := by
  obtain ⟨w, hw, hd⟩ := dec_delivers S hs hl
  obtain rfl := Host.Outcome.next.inj (hd.symm.trans hx)
  refine h.decoded ?_ (rawFn_range S _ (levelsLegal_iff.1 hl)) ?_ ?_ hw
  · rw [rawFn_length, inputSeq_length]
    exact rawCount_le _ _
  · exact inputSeq_length s ▸ invalidOf_length_le S s.inputSeq
  · exact fun k hk => inputSeq_length s ▸ lt_of_mem_invalidOf hk

/-- Every operation of CORE keeps the invariant: it delivers, or it is error entry. -/
theorem core_inv (dir : Bool) (sid : SchemeId) (h : s.Inv) (hs : s.Started)
    (hx : exec (coreInstr dir sid) s = .next t) : t.Inv := by
  cases sid with
  | reserved => cases dir <;> exact Host.Outcome.next.inj hx ▸ h.raise .invalidScheme
  | known S =>
    cases dir
    · by_cases hl : s.BitsLegal
      · exact enc_inv S h hs hl hx
      · exact Host.Outcome.next.inj ((enc_illegal S h.n hl).symm.trans hx) ▸ h.raise _
    · by_cases hl : s.LevelsLegal S
      · exact dec_inv S h hs hl hx
      · exact Host.Outcome.next.inj ((dec_illegal S h.n hl).symm.trans hx) ▸ h.raise _

/-! The invariant: the moves of the host and reset -/

theorem State.Inv.start (h : s.Inv) (c : CmdWord) (hi : s.ilen ≤ s.cfg.maxIn) : (s.start c).Inv :=
  { h with
    n := hi, idx := Nat.zero_le _, optr := Nat.zero_le _, wptr := Nat.zero_le _
    started := fun _ => start_started c hi }

/-- While `BUSY` = 0 the input is the host's to write (R214). -/
theorem State.Inv.withInput (h : s.Inv) (hb : s.busy = false) {ibuf : Memory} {ilen : Nat}
    (hm : Memory.wf s.cfg.maxIn ibuf) (hl : ilen < 2 ^ s.cfg.lenW) :
    ({ s with ibuf := ibuf, ilen := ilen } : State).Inv :=
  { h with ibuf := hm, ilen := hl, started := fun hb' => absurd (hb.symm.trans hb') (by decide) }

theorem hostWrite_inv {w : HostWrite} (h : s.Inv) (hx : hostWrite w s = .next t) : t.Inv := by
  obtain rfl | ⟨-, hi, v, -, rfl⟩ | ⟨hb, v, -, rfl⟩ | ⟨hb, i, v, -, hi, rfl⟩ | ⟨i, v, -, hi, rfl⟩ | ⟨v, -, rfl⟩ |
    ⟨p, -, rfl⟩ := hostWrite_cases hx
  · exact h
  · exact h.start _ hi
  · exact h.withInput hb h.ibuf (Nat.mod_lt _ (Nat.two_pow_pos _))
  · exact h.withInput hb (Memory.wf_write _ h.ibuf hi) h.ilen
  · exact h.of_sameCore rfl (Memory.wf_write _ h.nin hi) h.nout
  · exact h.of_sameCore rfl h.nin h.nout
  · exact h.of_sameCore rfl h.nin h.nout

/-- R39: the state after power-on meets the invariant. -/
theorem power_inv {cfg : Config} (h : cfg.Ok) (events : List Event) : (State.power cfg events).Inv where
  cfg := h
  ibuf := Memory.wf_nil _
  nin := Memory.wf_nil _
  ilen := Nat.two_pow_pos _
  olen := Nat.le_refl _
  obuf := Nat.zero_le _
  wcnt := Nat.le_refl _
  wbuf := Nat.zero_le _
  vals := nofun
  elems := nofun
  padcnt := frameBits_pos
  padding := Nat.le_refl _
  errors := fun he => absurd rfl he
  n := Nat.zero_le _
  idx := Nat.le_refl _
  optr := Nat.zero_le _
  wptr := Nat.zero_le _
  started := nofun
  nout := Nat.zero_le _

/-- R210: so does the state after a reset. -/
theorem State.Inv.hardReset (h : s.Inv) : s.hardReset.Inv := { power_inv h.cfg s.events with started := nofun }

/-- Settles O59, by the cases of a step: an operation of CORE, which runs on a started state; the idle engine; a host
write; `NOISE`; and reset. -/
theorem everyStepKeepsTheInvariant : Obligations.EveryStepKeepsTheInvariant := by
  intro s t h hx
  obtain ⟨hb, rest, -, hs⟩ | ⟨-, -, hs⟩ | ⟨-, rest, -, hs⟩ | ⟨w, rest, -, hs⟩ | ⟨v, rest, -, hs⟩ | ⟨rest, -, hs⟩ :=
    step_cases s <;> rw [hs] at hx
  · exact core_inv _ _ (h.withEvents rest) ((h.withEvents rest).started hb) hx
  · exact Host.Outcome.next.inj hx ▸ h
  · exact Host.Outcome.next.inj hx ▸ h.withEvents rest
  · exact hostWrite_inv (h.withEvents rest) hx
  · have hn : ({ s with events := rest, nscheme := BitVec.ofNat 3 v } : State).Inv := h.of_sameCore rfl h.nin h.nout
    exact noise_inv hn hx
  · exact Host.Outcome.next.inj hx ▸ (h.withEvents rest).hardReset

end Sys2Proof.Machine
end

section
/-! PROOFS. O7, O11, O55, O58 and O60: what an instruction and a step leave unchanged, and the moves of the host on
`CMD` and `IBUF` these statements speak of. -/

namespace Sys2Proof.Machine

variable {s t : State}

/-! What an instruction leaves unchanged (R21, R186) -/

/-- R21's column "used by", for the instruction `i`: the state registers `i` does not use, the latched length and
command, and the parameters are the same in both states. -/
structure State.Frame (i : Instr) (s t : State) : Prop where
  cur : i ≠ .encNrzi → i ≠ .encDman → i ≠ .encBpm → i ≠ .encBps → t.cur = s.cur
  pol : i ≠ .encAmi → t.pol = s.pol
  prevEnd : i ≠ .decBpm → i ≠ .decBps → t.prevEnd = s.prevEnd
  prevBit : i ≠ .decMan → t.prevBit = s.prevBit
  n : t.n = s.n
  lcmd : t.lcmd = s.lcmd
  cfg : t.cfg = s.cfg

/-- A move that changes no working register but the counters stays in the frame of every instruction. -/
theorem State.Frame.of_work {i : Instr} (hw : t.work = { s.work with idx := t.idx }) (hn : t.n = s.n)
    (hl : t.lcmd = s.lcmd) (hc : t.cfg = s.cfg) : s.Frame i t where
  cur _ _ _ _ := congrArg Work.cur hw
  pol _ := congrArg Work.pol hw
  prevEnd _ _ := congrArg Work.prevEnd hw
  prevBit _ := congrArg Work.prevBit hw
  n := hn
  lcmd := hl
  cfg := hc

theorem State.Frame.trans {i : Instr} {u : State} (h : s.Frame i t) (h' : t.Frame i u) : s.Frame i u where
  cur h₁ h₂ h₃ h₄ := (h'.cur h₁ h₂ h₃ h₄).trans (h.cur h₁ h₂ h₃ h₄)
  pol hi := (h'.pol hi).trans (h.pol hi)
  prevEnd h₁ h₂ := (h'.prevEnd h₁ h₂).trans (h.prevEnd h₁ h₂)
  prevBit hi := (h'.prevBit hi).trans (h.prevBit hi)
  n := h'.n.trans h.n
  lcmd := h'.lcmd.trans h.lcmd
  cfg := h'.cfg.trans h.cfg

theorem respects_frame (i : Instr) : Respects (State.Frame i) where
  refl _ := .of_work rfl rfl rfl rfl
  trans _ _ _ := .trans
  emit _ _ := .of_work rfl rfl rfl rfl
  warn _ _ _ := .of_work rfl rfl rfl rfl
  advance _ _ := .of_work rfl rfl rfl rfl
  finish _ _ := .of_work rfl rfl rfl rfl
  raise _ _ := .of_work rfl rfl rfl rfl

/-- Every instruction stays in its frame: a state register is moved only in the instructions that use it. -/
theorem exec_frame {i : Instr} (hx : exec i s = .next t) : s.Frame i t := by
  refine (respects_frame i).exec i (fun hi s b => ?_) (fun hi s => ?_) (fun hi s b => ?_) (fun hi s => ?_) ?_ hx
  · exact ⟨by tauto, fun _ => rfl, fun _ _ => rfl, fun _ => rfl, rfl, rfl, rfl⟩
  · exact ⟨fun _ _ _ _ => rfl, absurd hi, fun _ _ => rfl, fun _ => rfl, rfl, rfl, rfl⟩
  · exact ⟨fun _ _ _ _ => rfl, fun _ => rfl, fun _ _ => rfl, absurd hi, rfl, rfl, rfl⟩
  · exact ⟨fun _ _ _ _ => rfl, fun _ => rfl, by tauto, fun _ => rfl, rfl, rfl, rfl⟩
  · rintro sid rfl t hx
    obtain ⟨e, rfl⟩ | ⟨S, -, rfl⟩ := noise_next hx <;> exact .of_work rfl rfl rfl rfl

/-- A checked operation whose body ends without an error leaves an error only by error entry. -/
theorem transact_error {legal : List Int} {e : ErrCode} {body : State → State} (hb : (body s).err = .noError)
    (hx : transact legal e body s = .next t) (he : t.err ≠ .noError) : t = s.raise e := by
  obtain ⟨-, h⟩ | ⟨-, -, h⟩ | ⟨-, -, h⟩ := transact_cases s (legal := legal) (e := e) (body := body) <;> rw [h] at hx
  · cases hx
  · exact absurd (Host.Outcome.next.inj hx ▸ hb) he
  · exact (Host.Outcome.next.inj hx).symm

theorem encodeWith_error {body : State → State} (hx : encodeWith body s = .next t) (he : t.err ≠ .noError) :
    t = s.raise .invalidBit := transact_error rfl hx he

theorem decodeWith_error {S : Scheme} {raw : State → State} (hx : decodeWith S raw s = .next t)
    (he : t.err ≠ .noError) : t = s.raise .invalidLevel := transact_error rfl hx he

/-- R186: an operation of CORE that leaves an error has made the five assignments of error entry and nothing else. -/
theorem exec_error {i : Instr} (hx : exec i s = .next t) (he : t.err ≠ .noError) :
    (∃ e, t = s.raise e) ∨ ∃ sid, i = .noise sid := by
  cases i with
  | encNrz | encNrzi | encAmi | encMan | encDman | encBpm | encBps => exact .inl ⟨_, encodeWith_error hx he⟩
  | decNrz | decNrzi | decAmi | decMan | decDman | decBpm | decBps => exact .inl ⟨_, decodeWith_error hx he⟩
  | reservedEnc7 | reservedDec7 => exact .inl ⟨_, (Host.Outcome.next.inj hx).symm⟩
  | noise sid => exact .inr ⟨sid, rfl⟩

/-- Settles O55: the frame of the instruction, the command and its input, and, for an error, error entry; `NOISE`
touches no register and no buffer of CORE, whatever `ERR` holds. -/
theorem frameOfEveryOperation : Obligations.FrameOfEveryOperation := by
  intro i s t hx
  have hf := exec_frame hx
  have hk := exec_sameInput hx
  refine ⟨hf.cur, hf.pol, hf.prevEnd, hf.prevBit, hf.n, hf.lcmd, hf.cfg, hk.events, hk.era, fun he => ?_⟩
  obtain ⟨e, rfl⟩ | ⟨sid, rfl⟩ := exec_error hx he
  · exact ⟨rfl, rfl, rfl, rfl, rfl, rfl, rfl, rfl, rfl⟩
  · obtain ⟨e, rfl⟩ | ⟨S, -, rfl⟩ := noise_next hx <;> exact ⟨rfl, rfl, rfl, rfl, rfl, rfl, rfl, rfl, rfl⟩

/-! What no step changes (R37) -/

theorem hostWrite_cfg {w : HostWrite} (hx : hostWrite w s = .next t) : t.cfg = s.cfg := by
  obtain rfl | ⟨-, -, v, -, rfl⟩ | ⟨-, v, -, rfl⟩ | ⟨-, i, v, -, -, rfl⟩ | ⟨i, v, -, -, rfl⟩ | ⟨v, -, rfl⟩ |
    ⟨p, -, rfl⟩ := hostWrite_cases hx <;> rfl

/-- Settles O58, by the cases of a step: an instruction, a move of the idle engine, a host write, or reset. -/
theorem parametersNeverChange : Obligations.ParametersNeverChange := by
  intro s t hx
  obtain ⟨-, rest, -, hs⟩ | ⟨-, -, hs⟩ | ⟨-, rest, -, hs⟩ | ⟨w, rest, -, hs⟩ | ⟨v, rest, -, hs⟩ | ⟨rest, -, hs⟩ :=
    step_cases s <;> rw [hs] at hx
  · exact (exec_frame hx).cfg
  · exact Host.Outcome.next.inj hx ▸ rfl
  · exact Host.Outcome.next.inj hx ▸ rfl
  · exact (hostWrite_cfg hx).trans rfl
  · exact (exec_frame hx).cfg
  · exact Host.Outcome.next.inj hx ▸ rfl

/-! Host writes of `CMD` and `IBUF` (R214, R30) -/

theorem step_cmdWrite_reserved {v : Nat} {rest : List Event} (hb : s.busy = false) (hi : s.cfg.maxIn < s.ilen)
    (he : s.events = .write (.reg 0 v) :: rest) : step s = .refused .ilenReserved := by
  simp [step, fetch, he, hostWrite, State.writeReg, State.writeCmd, hb, hi]

theorem step_ibufWrite {i v : Nat} {rest : List Event} (hb : s.busy = false) (hi : i < s.cfg.maxIn)
    (he : s.events = .write (.ibuf i v) :: rest) :
    step s = .next { s with events := rest, ibuf := s.ibuf.write i (BitVec.ofNat 2 v) } := by
  simp [step, fetch, he, hostWrite, atIndex, State.writeIbuf, hb, hi]

/-- A listed element of `IBUF` is what the host reads there. -/
theorem hostReadIbuf_of_read {i : Nat} {e : Elem} (hi : i < s.cfg.maxIn) (hm : s.ibuf.read i = some e) :
    hostReadIbuf s i = .ok e := by
  rw [hostReadIbuf_lt s hi, State.readIbuf, hm, Option.getD_some]

/-- `IBUF[j]` depends only on what is listed there, on the reset counter and on whether the index exists. -/
theorem hostReadIbuf_congr {j : Nat} (hm : t.ibuf.read j = s.ibuf.read j) (he : t.era = s.era) (hc : t.cfg = s.cfg) :
    hostReadIbuf t j = hostReadIbuf s j := by
  simp only [hostReadIbuf, State.readIbuf, hm, he, hc]

/-- Settles O7: the start is refused, and so is an operation that has latched such a length. -/
theorem reservedLengthIsRefused : Obligations.ReservedLengthIsRefused :=
  ⟨fun _ _ _ he hb hi => step_cmdWrite_reserved hb hi he, fun _ dir S hn => known_unfit dir S hn⟩

/-- Settles O11, by the laws of a buffer: read after write at the same index, and at another one. -/
theorem ibufReadsWhatWasWritten : Obligations.IbufReadsWhatWasWritten := by
  intro s i v rest hb hi he
  refine ⟨_, step_ibufWrite hb hi he, ?_, fun j hj => ?_, rfl, rfl, rfl⟩
  · exact hostReadIbuf_of_read hi (Memory.read_write_same _ _ _)
  · exact hostReadIbuf_congr (Memory.read_write_other _ _ hj) rfl rfl

/-! Power-on (R39) -/

/-- Settles O60: `State.reset` is the power-on state of an instance with `MAX_IN` = 31. -/
theorem powerOnMeetsTheInvariant : Obligations.PowerOnMeetsTheInvariant :=
  ⟨power_inv (cfg := Config.chosen) (by decide) [], fun _ events h => power_inv h events⟩

end Sys2Proof.Machine
end

section
/-! PROOFS. O10 and O54: places that do not exist, for a write and for a read, and the input under every instruction. -/

namespace Sys2Proof.Machine

variable {s : State}

/-! What no instruction writes (R64) -/

/-- Settles O54: every instruction leaves the input in place, and what the host reads of `IBUF` depends on the input, the
reset counter and the parameters alone. -/
theorem inputIsImmutable : Obligations.InputIsImmutable := by
  intro i s t hx
  have hk := exec_sameInput hx
  exact ⟨hk.ibuf, hk.ilen, hk.cmd, fun j =>
    hostReadIbuf_congr (congrArg (Memory.read · j) hk.ibuf) hk.era (exec_frame hx).cfg⟩

/-! Register numbers and indices that do not exist (R28, R50) -/

/-- R214: when a host write is next, the step is that write. -/
theorem step_hostWrite {w : HostWrite} {rest : List Event} (he : s.events = .write w :: rest) :
    step s = hostWrite w { s with events := rest } := by
  rw [step, fetch, he]

theorem atIndex_of_le {i cap : Nat} (h : cap ≤ i) : atIndex i cap s = .fault .noSuchIndex :=
  if_neg (Nat.not_lt.2 h)

/-- R161: with a noise unit, a move of the host to it happens. -/
theorem toNoiseUnit_present {o : Host.Outcome State Fault Refusal} (h : s.cfg.hasNoiseUnit = true) :
    s.toNoiseUnit o = o := if_pos h

theorem writeReg_missing {r : Nat} (v : Nat) (h : 5 < r) : s.writeReg r v = .fault .noSuchRegister := by
  obtain ⟨k, rfl⟩ := Nat.exists_eq_add_of_le' h
  rfl

/-- Whatever `BUSY` is, no value is stored or shown under a register number above 5. -/
theorem hostReadReg_missing {r : Nat} (h : 5 < r) : hostReadReg s r = .error .noSuchRegister := by
  obtain ⟨k, rfl⟩ := Nat.exists_eq_add_of_le' h
  cases hb : s.busy <;> simp [hostReadReg, hb, State.regValue, State.busyRegValue]

/-- Settles O10: a write is the step itself; its register number selects no register, or its index fails the check
against the capacity, and so it is with a read. -/
theorem missingPlacesFault : Obligations.MissingPlacesFault := by
  intro s
  refine ⟨fun w rest he => ?_, fun r => hostReadReg_missing, fun i hi => if_neg (Nat.not_lt.2 hi),
    fun i hi => if_neg (Nat.not_lt.2 hi), fun i hi => if_neg (Nat.not_lt.2 hi),
    fun i hi => if_neg fun h => Nat.not_lt.2 hi h.2⟩
  rw [step_hostWrite he]
  refine ⟨?_, ?_, ?_, ?_, ?_⟩
  · rintro r v rfl hr
    exact writeReg_missing v hr
  · rintro i v rfl hi
    exact atIndex_of_le hi
  · rintro i v rfl hi
    exact atIndex_of_le hi
  · rintro i v rfl hi
    exact atIndex_of_le hi
  · rintro i v rfl hu hi
    exact (toNoiseUnit_present (s := { s with events := rest }) hu).trans (atIndex_of_le hi)

end Sys2Proof.Machine
end

section
/-! PROOFS. O1, O2, O4, O38 and O56: the command words of the two formats, the noise unit's command and inputs and where
`NOISE` is refused, and the elements a transaction writes. -/

namespace Sys2Proof

/-! Command words (R70 to R72, R78, R85) -/

/-- R72: the scheme ids and the words of a scheme field name each other. -/
theorem SchemeId.ofWord_word (sid : SchemeId) : SchemeId.ofWord sid.word = sid := by
  cases sid with
  | known S => cases S <;> rfl
  | reserved => rfl

theorem SchemeId.word_ofWord (w : SchemeWord) : (SchemeId.ofWord w).word = w := by revert w; decide

/-- R70: a command word is its `dir` bit above its scheme field. -/
theorem cons_dirField_schemeField (w : CmdWord) : BitVec.cons (dirField w) (schemeField w) = w := by
  revert w; decide

/-- R78: the word of an operation has its direction above its scheme's id. -/
theorem encode_coreInstr (dir : Bool) (sid : SchemeId) :
    encode (coreInstr dir sid) = .c (BitVec.cons dir sid.word) := by
  cases sid with
  | known S => cases dir <;> cases S <;> rfl
  | reserved => cases dir <;> rfl

theorem decode_encode (i : Instr) : decode (encode i) = i := by
  cases i with
  | encNrz | encNrzi | encAmi | encMan | encDman | encBpm | encBps => rfl
  | decNrz | decNrzi | decAmi | decMan | decDman | decBpm | decBps => rfl
  | reservedEnc7 | reservedDec7 => rfl
  | noise sid => exact congrArg Instr.noise (SchemeId.ofWord_word sid)

theorem encode_decode (c : Command) : encode (decode c) = c := by
  cases c with
  | c w => rw [decode, encode_coreInstr, SchemeId.word_ofWord, cons_dirField_schemeField]
  | n w => exact congrArg Command.n (SchemeId.word_ofWord w)

/-- Settles O1: an instruction by its constructor, and a word by its fields, which name the instruction. -/
theorem decodeAndEncodeAgree : Obligations.DecodeAndEncodeAgree := ⟨decode_encode, encode_decode⟩

/-- Settles O2: each row of the map writes out the word `encode` gives its instruction. -/
theorem decodeReadsTheOpcodeMap : Obligations.DecodeReadsTheOpcodeMap :=
  ⟨decode_encode .encNrz, decode_encode .encNrzi, decode_encode .encAmi, decode_encode .encMan,
    decode_encode .encDman, decode_encode .encBpm, decode_encode .encBps, decode_encode .reservedEnc7,
    decode_encode .decNrz, decode_encode .decNrzi, decode_encode .decAmi, decode_encode .decMan,
    decode_encode .decDman, decode_encode .decBpm, decode_encode .decBps, decode_encode .reservedDec7,
    decode_encode (.noise (.known .nrz)), decode_encode (.noise (.known .nrzi)),
    decode_encode (.noise (.known .ami)), decode_encode (.noise (.known .man)),
    decode_encode (.noise (.known .dman)), decode_encode (.noise (.known .bpm)),
    decode_encode (.noise (.known .bps)), decode_encode (.noise .reserved)⟩

end Sys2Proof

namespace Sys2Proof.Machine

variable {s : State}

/-! The noise unit (R85, R161) -/

theorem atIndex_of_lt {i cap : Nat} (h : i < cap) : atIndex i cap s = .next s := if_pos h

/-- R85: when a command of format N is next, the step runs it, with its word in `NSCHEME`. -/
theorem step_noiseCommand {v : Nat} {rest : List Event} (he : s.events = .noise v :: rest) :
    step s = exec (decode (.n (BitVec.ofNat 3 v))) { s with events := rest, nscheme := BitVec.ofNat 3 v } := by
  rw [step, fetch, he]
  rfl

/-- Settles O4: a command of format N is run by the step, and a host write to a unit that is there happens. -/
theorem noiseUnitTakesItsCommandAndInputs : Obligations.NoiseUnitTakesItsCommandAndInputs := by
  refine ⟨fun s v rest => step_noiseCommand, fun s w rest hu he => ?_⟩
  have present (o : Host.Outcome State Fault Refusal) : ({ s with events := rest } : State).toNoiseUnit o = o :=
    toNoiseUnit_present hu
  rw [step_hostWrite he]
  refine ⟨?_, ?_, ?_⟩
  · rintro i v rfl hi
    exact (present _).trans (atIndex_of_lt hi)
  · rintro v rfl
    exact present _
  · rintro p rfl
    exact present _

theorem noise_absent (sid : SchemeId) (hu : s.cfg.hasNoiseUnit = false) :
    exec (.noise sid) s = .refused .noiseUnitAbsent := if_neg (ne_true_of_eq_false hu)

theorem noise_nlenReserved (S : Scheme) (hu : s.cfg.hasNoiseUnit = true) (h0 : 0 ≤ s.nprob) (h1 : s.nprob ≤ 1)
    (hn : s.cfg.noiseCap < s.nlen) : exec (.noise (.known S)) s = .refused .nlenReserved := by
  have hp : ¬ (s.nprob < 0 ∨ 1 < s.nprob) := not_or.2 ⟨not_lt.2 h0, not_lt.2 h1⟩
  exact (if_pos hu).trans ((if_neg hp).trans (if_pos hn))

/-- Settles O38: the unit is missing, or the checks before that of `NLEN` pass. -/
theorem noiseStops : Obligations.NoiseStops := ⟨fun _ => noise_absent, fun _ => noise_nlenReserved⟩

/-! The elements a transaction writes (R75) -/

theorem delivered_obuf (out : List Int) (p : Nat) (ws : List Warning) (w : Work) :
    ((s.delivered out p ws).withWork w).obuf = out.map enc2 := rfl

theorem decoded_obuf (raw : List Int) (ks : List Nat) (w : Work) : ((s.decoded raw ks).withWork w).obuf =
    raw.map enc2 ++ List.replicate ((8 - raw.length % 8) % 8) 0b00#2 := by
  rw [State.decoded, delivered_obuf, List.map_append, List.map_replicate]
  rfl

theorem enc_elements (S : Scheme) (hs : s.Started) (hl : s.BitsLegal) :
    ∃ t, exec (coreInstr false (.known S)) s = .next t ∧
      ∀ e ∈ t.obuf, e = 0b00#2 ∨ e = 0b01#2 ∨ (S = .ami ∧ e = 0b11#2) := by
  obtain ⟨w, -, hx⟩ := enc_delivers S hs hl
  refine ⟨_, hx, fun e he => ?_⟩
  rw [delivered_obuf] at he
  obtain ⟨v, hv, rfl⟩ := List.mem_map.1 he
  obtain rfl | rfl | ⟨hS, rfl⟩ := encFn_range S _ (bitsLegal_iff.1 hl) v hv
  · exact .inl rfl
  · exact .inr (.inl rfl)
  · exact .inr (.inr ⟨hS, rfl⟩)

theorem dec_elements (S : Scheme) (hs : s.Started) (hl : s.LevelsLegal S) :
    ∃ t, exec (coreInstr true (.known S)) s = .next t ∧ ∀ e ∈ t.obuf, e = 0b00#2 ∨ e = 0b01#2 := by
  obtain ⟨w, -, hx⟩ := dec_delivers S hs hl
  refine ⟨_, hx, fun e he => ?_⟩
  rw [decoded_obuf] at he
  rcases List.mem_append.1 he with he | he
  · obtain ⟨v, hv, rfl⟩ := List.mem_map.1 he
    obtain rfl | rfl := rawFn_range S _ (levelsLegal_iff.1 hl) v hv
    · exact .inl rfl
    · exact .inr rfl
  · exact .inl (List.mem_replicate.1 he).2

/-- Settles O56: what an encode or a decode delivers is the encoding of a function on sequences, whose values are
0 and 1, with -1 from `ENC.AMI` alone, and the padding of a decode is zeros. -/
theorem onlyAmiEncodingWritesMinusOne : Obligations.OnlyAmiEncodingWritesMinusOne := by
  intro dir S s hs he hd
  cases dir
  · obtain ⟨t, hx, ht⟩ := enc_elements S hs (he rfl)
    exact ⟨t, hx, fun e hm => (ht e hm).imp_right fun h => h.imp_right fun h => ⟨rfl, h⟩⟩
  · obtain ⟨t, hx, ht⟩ := dec_elements S hs (hd rfl)
    exact ⟨t, hx, fun e hm => (ht e hm).imp_right .inl⟩

end Sys2Proof.Machine
end

section
/-! PROOFS. O3, O5, O6, O41 and O52: the steps of a transaction, the counts it delivers, and its results as a function of
the command and the input sequence. -/

namespace Sys2Proof.Machine

variable {s : State}

/-! The engine's move and the start (R91, R95) -/

/-- R222: with no event left, a started transaction is run. -/
theorem step_busy_noEvent (hb : s.busy = true) (he : s.events = []) : step s = exec (decode (.c s.lcmd)) s := by
  rw [step, fetch, he]
  simp only [engineMove, if_pos hb]

/-- Settles O3: an engine move at the head of the events, and no event left. -/
theorem engineRunsTheLatchedCommand : Obligations.EngineRunsTheLatchedCommand :=
  fun _ hb => ⟨fun _ he => step_engine hb he, step_busy_noEvent hb⟩

theorem withFetchWord_formatC {nbits : Nat} (w : Nat) (h : 4 ≤ nbits) :
    s.withFetchWord nbits w = { s.start (BitVec.ofNat 4 w) with events := .engine :: s.events } :=
  if_neg (Nat.not_le.2 h)

theorem withFetchWord_formatN {nbits : Nat} (w : Nat) (h : nbits ≤ 3) :
    s.withFetchWord nbits w = { s with events := .noise w :: s.events } := if_pos h

/-- Settles O5: a placed word of format C leaves a started transaction with the engine to move, one of format N leaves its
own write at the head of the events; either move takes its event off the list again. -/
theorem placedWordRunsNext : Obligations.PlacedWordRunsNext := by
  intro s nbits w
  refine ⟨fun h => ?_, fun h => ?_⟩
  · rw [withFetchWord_formatC w h]
    exact step_engine rfl rfl
  · rw [withFetchWord_formatN w h.le]
    exact step_noiseCommand rfl

/-- R218: while `BUSY` = 1 a write of `CMD` is ignored. -/
theorem writeCmd_busy (v : Nat) (hb : s.busy = true) : s.writeCmd v = .next s := if_pos hb

/-- Settles O6: `State.start` makes the assignments of R91, and a busy block ignores the write. -/
theorem cmdWriteStartsATransaction : Obligations.CmdWriteStartsATransaction := by
  intro s v rest he
  refine ⟨fun hb hi => step_cmdWrite hb hi he, fun hb => ?_⟩
  rw [step_hostWrite he]
  exact writeCmd_busy v hb

/-! The counts of a transaction (R99) -/

theorem decoded_olen (raw : List Int) (ks : List Nat) :
    (s.decoded raw ks).olen = raw.length + (s.decoded raw ks).padcnt := by
  simp [State.decoded, State.delivered]

/-- One record for each invalid symbol, and one for the padding when there is any. -/
theorem decoded_wcnt (raw : List Int) (ks : List Nat) :
    (s.decoded raw ks).wcnt = ks.length + if (s.decoded raw ks).padcnt = 0 then 0 else 1 := by
  have hpad : (s.decoded raw ks).padcnt = 0 ↔ raw.length % 8 = 0 := padCount_eq_zero raw.length
  simp only [hpad]
  simp only [State.decoded, State.delivered, List.length_append, List.length_map, apply_ite List.length]
  rfl

/-- R134: the reported symbols are those whose two levels agree. -/
theorem invalidSymbols_inputSeq : invalidSymbols s.inputSeq =
    (List.range (s.n / 2)).filter fun k => s.input (2 * k) == s.input (2 * k + 1) := by
  rw [invalidSymbols, inputSeq_length]
  refine List.filter_congr fun k hk => ?_
  have hk : k < s.n / 2 := List.mem_range.1 hk
  rw [inputSeq_getD s (by omega), inputSeq_getD s (by omega)]

theorem invalidOf_inputSeq_length (S : Scheme) : (invalidOf S s.inputSeq).length =
    if S = .man then ((List.range (s.n / 2)).filter fun k => s.input (2 * k) == s.input (2 * k + 1)).length else 0 := by
  rw [invalidOf, apply_ite List.length, invalidSymbols_inputSeq]
  rfl

theorem enc_counts (S : Scheme) (hs : s.Started) (hl : s.BitsLegal) :
    ∃ t, exec (coreInstr false (.known S)) s = .next t ∧
      t.olen = levelsPerBit S * s.n ∧ t.padcnt = 0 ∧ t.wcnt = 0 := by
  obtain ⟨w, -, hx⟩ := enc_delivers S hs hl
  refine ⟨_, hx, ?_, rfl, rfl⟩
  exact (encFn_length S s.inputSeq).trans (by rw [inputSeq_length])

/-- Settles O41: what a legal encode or decode delivers has the length of its function on sequences; a decode adds the
padding, and one record for each invalid symbol and for the padding. -/
theorem resultCounts : Obligations.ResultCounts := by
  intro s S hs
  refine ⟨enc_counts S hs, fun hl => ?_⟩
  obtain ⟨w, -, hx⟩ := dec_delivers S hs hl
  have hr : (rawFn S s.inputSeq).length = rawCount s.n S := by rw [rawFn_length, inputSeq_length]
  refine ⟨_, hx, ?_, ?_, ?_⟩
  · rw [← hr]
    rfl
  · rw [← hr]
    exact decoded_olen (s := s) _ (invalidOf S s.inputSeq)
  · rw [← invalidOf_inputSeq_length]
    exact decoded_wcnt (s := s) _ _

/-! The results as a function of the command and the input (R92) -/

theorem results_of_exec {t : State} {dir : Bool} {sid : SchemeId} (hs : s.Started)
    (hx : exec (coreInstr dir sid) s = .next t) : t.results = codec dir sid s.inputSeq := by
  obtain ⟨u, hu, hr, -⟩ := core_results dir sid hs
  exact Host.Outcome.next.inj (hx.symm.trans hu) ▸ hr

/-- Settles O52: the results of both transactions are the same function of R17, applied to the same arguments. -/
theorem resultsDependOnTheInputAlone : Obligations.ResultsDependOnTheInputAlone := by
  intro dir sid s s' t t' hs hs' hin hx hx'
  rw [results_of_exec hs hx, results_of_exec hs' hx', hin]

end Sys2Proof.Machine
end

section
/-! PROOFS. O21 to O27 and O42 to O44: the whole next state after each encode, an encoder's output as the sequence of its
symbols, and the two laws read off the symbols. -/

namespace Sys2Proof.Machine

variable {s : State}

/-! The functions on sequences, on the input of a transaction (R111 to R117) -/

theorem encAmiFn_inputSeq : encAmiFn s.inputSeq =
    (List.range s.n).map fun i => if s.input i = 0 then 0 else (-1) ^ onesUpTo s.inputSeq i := by
  rw [encAmiFn, inputSeq_length]
  refine List.map_congr_left fun i hi => ?_
  rw [inputSeq_getD s (List.mem_range.1 hi)]

theorem encManFn_inputSeq :
    encManFn s.inputSeq = (List.range s.n).flatMap fun i => [s.input i, 1 - s.input i] := by
  rw [encManFn, inputSeq_length]
  refine List.flatMap_congr fun i hi => ?_
  rw [inputSeq_getD s (List.mem_range.1 hi)]

theorem encDmanFn_inputSeq : encDmanFn s.inputSeq = (List.range s.n).flatMap fun i =>
    [parity (onesUpTo s.inputSeq i + i), parity (onesUpTo s.inputSeq i + i + 1)] := by
  rw [encDmanFn, inputSeq_length]

/-! Counting the bits of a BitSequence (R110) -/

/-- Every bit is a 0-bit or a 1-bit. -/
theorem count_zero_add_count_one {B : List Int} (hB : ∀ v ∈ B, v ∈ bitAlphabet) :
    B.count 0 + B.count 1 = B.length := by
  induction B with
  | nil => rfl
  | cons v B ih =>
    have ih := ih fun x hx => hB x (List.mem_cons_of_mem v hx)
    have hv : v = 0 ∨ v = 1 := by simpa [bitAlphabet] using hB v List.mem_cons_self
    rcases hv with rfl | rfl <;> simp <;> omega

/-- A 0-bit and its place in the sequence change the parity together: what is left is the parity of the 0-bits. -/
theorem odd_count_one_add_length {B : List Int} (hB : ∀ v ∈ B, v ∈ bitAlphabet) :
    odd (B.count 1 + B.length) = decide (B.count 0 % 2 = 1) := by
  have h := count_zero_add_count_one hB
  refine decide_eq_decide.2 ?_
  omega

/-- The 1-bits of the complemented bits are the 0-bits. -/
theorem onesUpTo_map_complement (B : List Int) (i : Nat) :
    onesUpTo (B.map fun v => 1 - v) i = (B.take (i + 1)).count 0 := by
  have hinj : Function.Injective fun v : Int => 1 - v := sub_right_injective
  rw [onesUpTo, ← List.map_take]
  exact List.count_map_of_injective _ _ hinj 0

theorem parity_eq_of_mod {a b : Nat} (h : a % 2 = b % 2) : parity a = parity b := congrArg Nat.cast h

/-- R117: `ENC_BPS` is `ENC_BPM` of the complemented bits. Among the first i + 1 bits the 0-bits and the 1-bits add up
to i + 1, so their counts differ in parity by that of i + 1. -/
theorem encBpsFn_eq_encBpmFn_complement {B : List Int} (hB : ∀ v ∈ B, v ∈ bitAlphabet) :
    encBpsFn B = encBpmFn (B.map fun v => 1 - v) := by
  rw [encBpsFn, encBpmFn, List.length_map]
  refine List.flatMap_congr fun i hi => ?_
  have hi : i < B.length := List.mem_range.1 hi
  have h := count_zero_add_count_one (B := B.take (i + 1)) fun v hv => hB v (List.mem_of_mem_take hv)
  rw [List.length_take_of_le hi, ← onesUpTo] at h
  rw [onesUpTo_map_complement, parity_eq_of_mod (a := onesUpTo B i + 1) (b := (B.take (i + 1)).count 0 + i) (by omega),
    parity_eq_of_mod (a := onesUpTo B i) (b := (B.take (i + 1)).count 0 + i + 1) (by omega)]

/-! The whole next state after an encode -/

/-- Settles O21: the loop appends the input itself. -/
theorem encNrzDelivers : Obligations.EncNrzDelivers :=
  fun s hs hl => encodeWith_delivers hs hl (encNrz_loop s hs.idx)

/-- Settles O22: `cur` is flipped by every 1-bit and then put out. -/
theorem encNrziDelivers : Obligations.EncNrziDelivers := by
  intro s hs hl
  have h := encodeWith_delivers hs hl (encNrzi_loop s hs.idx hs.cur)
  rw [encNrziFn, inputSeq_length] at h
  exact h

/-- Settles O23: `pol`, flipped by every 1-bit, has the value (-1)^(c_i). -/
theorem encAmiDelivers : Obligations.EncAmiDelivers := by
  intro s hs hl
  have h := encodeWith_delivers hs hl (encAmi_loop s hs.idx hs.pol (bitsLegal_iff.1 hl))
  simp only [encAmiFn_inputSeq, polAfter, odd, decide_eq_true_eq] at h
  exact h

/-- Settles O24: on legal bits the two cases of the rule are the bit and its complement. -/
theorem encManDelivers : Obligations.EncManDelivers := by
  intro s hs hl
  have h := encodeWith_delivers hs hl (encMan_loop s hs.idx (bitsLegal_iff.1 hl))
  rw [encManFn_inputSeq] at h
  exact h

/-- Settles O25: `cur` has been flipped once by every symbol and once more by every 1-bit. -/
theorem encDmanDelivers : Obligations.EncDmanDelivers := by
  intro s hs hl
  have h := encodeWith_delivers hs hl (encDman_loop s hs.idx hs.cur)
  have hc := odd_count_one_add_length (bitsLegal_iff.1 hl)
  rw [inputSeq_length] at hc
  rw [encDmanFn_inputSeq, hc] at h
  exact h

/-- Settles O42: the two operations have the same element-step program. -/
theorem dmanAndBpmEncodeAlike : Obligations.DmanAndBpmEncodeAlike := fun _ => rfl

/-- Settles O26: what `ENC.DMAN` delivers. -/
theorem encBpmDelivers : Obligations.EncBpmDelivers :=
  fun s hs hl => (dmanAndBpmEncodeAlike s).symm.trans (encDmanDelivers s hs hl)

/-- Settles O27: `cur` has been flipped twice by every 0-bit and once by every 1-bit. -/
theorem encBpsDelivers : Obligations.EncBpsDelivers := by
  intro s hs hl
  have hb := bitsLegal_iff.1 hl
  have h := encodeWith_delivers hs hl (encBps_loop s hs.idx hs.cur hb)
  rw [encBpsFn, inputSeq_length] at h
  exact ⟨h, encBpsFn_eq_encBpmFn_complement hb⟩

/-! An encoder's output as the sequence of its symbols (R118, R120) -/

/-- The levels an encoder puts out for bit i of `B`. -/
def encSymbol (S : Scheme) (B : List Int) (i : Nat) : List Int :=
  match S with
  | .nrz => [B.getD i 0]
  | .nrzi => [parity (onesUpTo B i)]
  | .ami => [if B.getD i 0 = 0 then 0 else (-1) ^ onesUpTo B i]
  | .man => [B.getD i 0, 1 - B.getD i 0]
  | .dman | .bpm => [parity (onesUpTo B i + i), parity (onesUpTo B i + i + 1)]
  | .bps => [parity (onesUpTo B i + 1), parity (onesUpTo B i)]

theorem encSymbol_length (S : Scheme) (B : List Int) (i : Nat) : (encSymbol S B i).length = levelsPerBit S := by
  cases S <;> rfl

theorem map_getD_range (B : List Int) : ((List.range B.length).map fun i => B.getD i 0) = B := by
  refine List.ext_getElem (by simp) fun i _ h => ?_
  simp [h]

theorem encFn_eq_flatMap_encSymbol (S : Scheme) (B : List Int) :
    encFn S B = (List.range B.length).flatMap (encSymbol S B) := by
  cases S with
  | nrz => exact (map_getD_range B).symm.trans List.map_eq_flatMap
  | nrzi | ami => exact List.map_eq_flatMap
  | man | dman | bpm | bps => rfl

/-- c_i depends on the bits up to i. -/
theorem onesUpTo_take {i j : Nat} (h : i < j) (B : List Int) : onesUpTo (B.take j) i = onesUpTo B i := by
  rw [onesUpTo, List.take_take, Nat.min_eq_left h, onesUpTo]

theorem getD_take {i j : Nat} (h : i < j) (B : List Int) : (B.take j).getD i 0 = B.getD i 0 := by
  rw [List.getD_eq_getElem?_getD, List.getElem?_take_of_lt h, List.getD_eq_getElem?_getD]

/-- R120: the symbol of bit i depends on the bits up to i. -/
theorem encSymbol_take (S : Scheme) {i j : Nat} (h : i < j) (B : List Int) :
    encSymbol S (B.take j) i = encSymbol S B i := by
  cases S <;> simp only [encSymbol, onesUpTo_take h, getD_take h]

/-- Symbols of one length, cut after a whole number of them. -/
theorem take_flatMap_of_length {α β : Type} {f : α → List β} {c : Nat} (hf : ∀ a, (f a).length = c) (l : List α)
    (j : Nat) : (l.flatMap f).take (j * c) = (l.take j).flatMap f := by
  induction l generalizing j with
  | nil => simp
  | cons a l ih =>
    cases j with
    | zero => simp
    | succ j => simp [List.take_append, hf, Nat.succ_mul, ih]

/-- Element k of the i-th of symbols of one length. -/
theorem getElem?_flatMap_of_length {α β : Type} {f : α → List β} {c : Nat} (hf : ∀ a, (f a).length = c) (l : List α)
    (i : Nat) {k : Nat} (hk : k < c) : (l.flatMap f)[i * c + k]? = l[i]?.bind fun a => (f a)[k]? := by
  induction l generalizing i with
  | nil => simp
  | cons a l ih =>
    cases i with
    | zero => simp [List.getElem?_append, hf, hk]
    | succ i =>
      rw [List.flatMap_cons, List.getElem?_append_right (by rw [hf, Nat.succ_mul]; omega), hf,
        show (i + 1) * c + k - c = i * c + k by rw [Nat.succ_mul]; omega, ih]
      rfl

/-- R120: the output for the first j bits is the first j symbols of the output. -/
theorem encFn_take (S : Scheme) (B : List Int) (j : Nat) :
    encFn S (B.take j) = (encFn S B).take (j * levelsPerBit S) := by
  rw [encFn_eq_flatMap_encSymbol, encFn_eq_flatMap_encSymbol, take_flatMap_of_length (encSymbol_length S B),
    List.take_range, List.length_take]
  refine List.flatMap_congr fun i hi => encSymbol_take S ?_ B
  exact (List.mem_range.1 hi).trans_le (Nat.min_le_left _ _)

/-- What the host reads of an encode's output. -/
theorem enc_output (S : Scheme) {t : State} (hs : s.Started) (hl : s.BitsLegal)
    (hx : exec (coreInstr false (.known S)) s = .next t) : t.output = encFn S s.inputSeq := by
  have h := congrArg Results.out (results_of_exec hs hx)
  rw [codec, if_pos (by simpa using bitsLegal_iff.1 hl)] at h
  exact h

/-- Settles O43: the first j of legal bits are legal, so both encodes deliver, and their outputs are the encoder's
function of the bits and of the first j of them. -/
theorem encodersAreCausal : Obligations.EncodersAreCausal := by
  intro S j s s' t hs hs' hl hin hx
  have hl' : s'.BitsLegal := bitsLegal_iff.2 fun v hv => bitsLegal_iff.1 hl v (List.mem_of_mem_take (hin ▸ hv))
  obtain ⟨w, -, hx'⟩ := enc_delivers S hs' hl'
  refine ⟨_, hx', ?_⟩
  rw [enc_output S hs' hl' hx', enc_output S hs hl hx, hin, encFn_take]

/-! The mid-point transition of the 2-level encoders (R121) -/

theorem parity_succ (k : Nat) : parity (k + 1) = 1 - parity k := by
  simp only [parity]
  omega

/-- R121: the symbol of a 2-level encoder is a level and its complement. -/
theorem encSymbol_midpoint {S : Scheme} (hS : levelsPerBit S = 2) (B : List Int) (i : Nat) :
    ∃ a, encSymbol S B i = [a, 1 - a] := by
  cases S with
  | nrz | nrzi | ami => cases hS
  | man => exact ⟨_, rfl⟩
  | dman | bpm => exact ⟨_, congrArg (fun b => [_, b]) (parity_succ _)⟩
  | bps =>
    refine ⟨_, congrArg (fun b => [_, b]) ?_⟩
    rw [parity_succ, sub_sub_cancel]

/-- Element k of the symbol of bit i, in the output. -/
theorem encFn_getElem? (S : Scheme) {B : List Int} {i k : Nat} (hi : i < B.length) (hk : k < levelsPerBit S) :
    (encFn S B)[i * levelsPerBit S + k]? = (encSymbol S B i)[k]? := by
  rw [encFn_eq_flatMap_encSymbol, getElem?_flatMap_of_length (encSymbol_length S B) _ i hk, List.getElem?_range hi,
    Option.bind_some]

theorem output_getElem? {i : Nat} (h : i < s.olen) : s.output[i]? = some (sext2 (s.readObuf i)) := by
  simp [State.output, h]

/-- Settles O44: the two elements of symbol i, as the host reads them, are a level and its complement. -/
theorem everyEncodedSymbolHasAMidpointTransition : Obligations.EveryEncodedSymbolHasAMidpointTransition := by
  intro S s hS hs hl
  obtain ⟨t, hx, holen, -, -⟩ := enc_counts S hs hl
  rw [hS] at holen
  refine ⟨t, hx, holen, fun i hi => ?_⟩
  obtain ⟨a, ha⟩ := encSymbol_midpoint hS s.inputSeq i
  have level {k : Nat} (hk : k < 2) : some (sext2 (t.readObuf (2 * i + k))) = [a, 1 - a][k]? := by
    have h := encFn_getElem? S (B := s.inputSeq) (i := i) (k := k) (by rwa [inputSeq_length]) (by rwa [hS])
    rw [hS, Nat.mul_comm, ha, ← enc_output S hs hl hx, output_getElem? (by omega)] at h
    exact h
  have h0 : sext2 (t.readObuf (2 * i)) = a := Option.some.inj (level (k := 0) (by decide))
  have h1 : sext2 (t.readObuf (2 * i + 1)) = 1 - a := Option.some.inj (level (k := 1) (by decide))
  rw [h0, h1]

end Sys2Proof.Machine
end

section
/-! PROOFS. O28 to O34: the whole next state after each decode. -/

namespace Sys2Proof.Machine

variable {s : State}

/-! The raw functions, on the input of a transaction (R131 to R137) -/

theorem b2i_bne (a b : Int) : b2i (a != b) = if a = b then 0 else 1 := by
  by_cases h : a = b <;> simp [b2i, h]

theorem b2i_beq (a b : Int) : b2i (a == b) = if a = b then 1 else 0 := by
  by_cases h : a = b <;> simp [b2i, h]

theorem rawNrziFn_inputSeq : rawNrziFn s.inputSeq =
    (List.range (s.n - 1)).map fun j => if s.input (j + 1) = s.input j then 0 else 1 := by
  rw [rawNrziFn, inputSeq_length]
  refine List.map_congr_left fun j hj => ?_
  have hj : j < s.n - 1 := List.mem_range.1 hj
  rw [inputSeq_getD s (by omega), inputSeq_getD s (by omega), b2i_bne]

theorem rawAmiFn_inputSeq :
    rawAmiFn s.inputSeq = (List.range s.n).map fun i => if s.input i = 0 then 0 else 1 := by
  rw [rawAmiFn, State.inputSeq, List.map_map]
  exact List.map_congr_left fun i _ => b2i_bne _ _

theorem rawDmanFn_inputSeq : rawDmanFn s.inputSeq =
    (List.range (s.n / 2 - 1)).map fun k => if s.input (2 * k) = s.input (2 * k + 2) then 1 else 0 := by
  rw [rawDmanFn, inputSeq_length]
  refine List.map_congr_left fun k hk => ?_
  have hk : k < s.n / 2 - 1 := List.mem_range.1 hk
  rw [inputSeq_getD s (by omega), inputSeq_getD s (by omega), b2i_beq]

/-- R136: E[k] of the input. -/
theorem prevLevel_inputSeq {k : Nat} (hk : k ≤ s.n / 2) :
    prevLevel s.inputSeq k = if k = 0 then 0 else s.input (2 * k - 1) := by
  unfold prevLevel
  split_ifs with h
  · rfl
  · exact inputSeq_getD s (by omega)

/-- R136, R137: what is compared at the start of each symbol of the input. -/
theorem symbolStarts_inputSeq (bit : Int → Int → Int) :
    ((List.range (s.inputSeq.length / 2)).map fun k => bit (s.inputSeq.getD (2 * k) 0) (prevLevel s.inputSeq k)) =
      (List.range (s.n / 2)).map fun k => bit (s.input (2 * k)) (if k = 0 then 0 else s.input (2 * k - 1)) := by
  rw [inputSeq_length]
  refine List.map_congr_left fun k hk => ?_
  have hk : k < s.n / 2 := List.mem_range.1 hk
  rw [inputSeq_getD s (by omega), prevLevel_inputSeq hk.le]

theorem rawBpmFn_inputSeq : rawBpmFn s.inputSeq = (List.range (s.n / 2)).map fun k =>
    if s.input (2 * k) = (if k = 0 then 0 else s.input (2 * k - 1)) then 0 else 1 := by
  rw [rawBpmFn, symbolStarts_inputSeq fun a e => b2i (a != e)]
  simp only [b2i_bne]

theorem rawBpsFn_inputSeq : rawBpsFn s.inputSeq = (List.range (s.n / 2)).map fun k =>
    if s.input (2 * k) = (if k = 0 then 0 else s.input (2 * k - 1)) then 1 else 0 := by
  rw [rawBpsFn, symbolStarts_inputSeq fun a e => b2i (a == e)]
  simp only [b2i_beq]

/-- R24: after the last symbol `prev_end` holds its second level, if there was a symbol. -/
theorem endBefore_last :
    endBefore s.inputSeq (s.n / 2) = decide (2 ≤ s.n ∧ s.input (2 * (s.n / 2) - 1) = 1) := by
  rw [endBefore, prevLevel_inputSeq le_rfl, levelBit, beq_eq_decide]
  refine decide_eq_decide.2 ?_
  have hM : s.n / 2 = 0 ↔ ¬ 2 ≤ s.n := by omega
  by_cases h : 2 ≤ s.n <;> simp [hM, h]

/-! The bits of `DEC.MAN` (R134) -/

theorem rawManFn_eq (L : List Int) :
    rawManFn L = (List.range (L.length / 2)).map fun k => b2i (manPrev false L (k + 1)) := rawManFrom_eq false L

theorem rawManFn_getD {L : List Int} {k : Nat} (h : k < L.length / 2) :
    (rawManFn L).getD k 0 = b2i (manPrev false L (k + 1)) := by
  simp [rawManFn_eq, h]

/-- R134: the bit of symbol k, from the bit before it and its pair of levels. -/
theorem rawManFn_inputSeq_getD {k : Nat} (h : k < s.n / 2) : (rawManFn s.inputSeq).getD k 0 =
    b2i (manBit (manPrev false s.inputSeq k) (s.input (2 * k)) (s.input (2 * k + 1))) := by
  rw [rawManFn_getD (by rwa [inputSeq_length]), manPrev, inputSeq_getD s (by omega), inputSeq_getD s (by omega)]

/-- R134: an invalid pair repeats the bit before it. -/
theorem manBit_self (prev : Bool) (a : Int) : manBit prev a a = prev := by
  rw [manBit, if_neg (by omega), if_neg (by omega)]

/-- R25: `prev_bit` before symbol k is the bit before it, 0 before the first. -/
theorem b2i_manPrev {L : List Int} {k : Nat} (h : k < L.length / 2) :
    b2i (manPrev false L k) = if k = 0 then 0 else (rawManFn L).getD (k - 1) 0 := by
  cases k with
  | zero => rfl
  | succ k => exact (rawManFn_getD (Nat.lt_of_succ_lt h)).symm

/-- R25: `prev_bit` ends as the last bit. -/
theorem manPrev_last (L : List Int) :
    manPrev false L (L.length / 2) = ((rawManFn L).getLast?.getD 0 == 1) := by
  rw [rawManFn_eq]
  cases L.length / 2 with
  | zero => rfl
  | succ m =>
    rw [List.range_succ, List.map_append, List.map_singleton, List.getLast?_concat, Option.getD_some]
    cases manPrev false L (m + 1) <;> rfl

/-! The whole next state after a decode -/

/-- Settles O28: the loop appends the input itself. -/
theorem decNrzDelivers : Obligations.DecNrzDelivers :=
  fun s hs hl => decodeWith_delivers (ks := []) hs hl (decNrz_loop s hs.idx)

/-- Settles O29: the loop compares each level but the first with the one before it. -/
theorem decNrziDelivers : Obligations.DecNrziDelivers := by
  intro s hs hl
  have h := decodeWith_delivers (ks := []) hs hl (decNrzi_loop s hs.idx)
  rw [rawNrziFn_inputSeq] at h
  exact h

/-- Settles O30: the loop compares each level with 0. -/
theorem decAmiDelivers : Obligations.DecAmiDelivers := by
  intro s hs hl
  have h := decodeWith_delivers (ks := []) hs hl (decAmi_loop s hs.idx)
  rw [rawAmiFn_inputSeq] at h
  exact h

/-- Settles O31: the bits are those of the recursive form of the rule, and `prev_bit` is the bit last appended. -/
theorem decManDelivers : Obligations.DecManDelivers := by
  intro s hs hl
  refine ⟨rawManFn s.inputSeq, ?_, fun k hk => ?_, ?_⟩
  · exact (rawFn_length .man s.inputSeq).trans (by rw [inputSeq_length]; rfl)
  · rw [rawManFn_inputSeq_getD hk]
    refine ⟨fun h0 h1 => ?_, fun h0 h1 => ?_, fun heq => ?_⟩
    · rw [h0, h1]
      rfl
    · rw [h0, h1]
      rfl
    · rw [← heq, manBit_self, b2i_manPrev (by rwa [inputSeq_length])]
  · have h := decodeWith_delivers hs hl (decMan_loop s hs.idx hs.prevBit (levelsLegal_iff.1 hl))
    have hp := manPrev_last s.inputSeq
    rw [inputSeq_length] at hp
    rw [invalidSymbols_inputSeq, hp] at h
    exact h

/-- Settles O32: the loop compares the first levels of neighbouring symbols. -/
theorem decDmanDelivers : Obligations.DecDmanDelivers := by
  intro s hs hl
  have h := decodeWith_delivers (ks := []) hs hl (decDman_loop s hs.idx)
  rw [rawDmanFn_inputSeq] at h
  exact h

/-- Settles O33: the loop compares each symbol's first level with `prev_end`. -/
theorem decBpmDelivers : Obligations.DecBpmDelivers := by
  intro s hs hl
  have h := decodeWith_delivers (ks := []) hs hl (decBpm_loop s hs.idx hs.prevEnd (levelsLegal_iff.1 hl))
  rw [rawBpmFn_inputSeq, endBefore_last] at h
  exact h

/-- Settles O34: the same comparison with the other outcome. -/
theorem decBpsDelivers : Obligations.DecBpsDelivers := by
  intro s hs hl
  have h := decodeWith_delivers (ks := []) hs hl (decBps_loop s hs.idx hs.prevEnd (levelsLegal_iff.1 hl))
  rw [rawBpsFn_inputSeq, endBefore_last] at h
  exact h

end Sys2Proof.Machine
end

section
/-! PROOFS. O47 to O51: what the host reads after a legal decode, and the laws of the raw functions it shows. -/

namespace Sys2Proof.Machine

variable {s : State}

/-! What the host reads after a decode (R17, R130, R146) -/

theorem olen_eq_output_length : s.olen = s.output.length := by simp [State.output]

/-- A legal decode delivers the triple of R130. -/
theorem dec_observes (S : Scheme) (hs : s.Started) (hl : s.LevelsLegal S) :
    ∃ t, exec (coreInstr true (.known S)) s = .next t ∧ t.results = decResults S s.inputSeq := by
  obtain ⟨w, -, hx⟩ := dec_delivers S hs hl
  exact ⟨_, hx, decoded_results S w hl⟩

section

variable {S : Scheme} {L : List Int} (h : s.results = decResults S L)

include h

theorem decResults_err : s.err = .noError := congrArg Results.err h

theorem decResults_output :
    s.output = rawFn S L ++ List.replicate (padCount (rawFn S L).length) 0 := congrArg Results.out h

theorem decResults_padcnt : s.padcnt = padCount (rawFn S L).length := congrArg Results.pad h

theorem decResults_warnings :
    s.warnings = transitionWarnings S L ++ padWarnings (padCount (rawFn S L).length) := congrArg Results.warns h

theorem decResults_olen : s.olen = (rawFn S L).length + s.padcnt := by
  rw [olen_eq_output_length, decResults_output h, decResults_padcnt h, List.length_append, List.length_replicate]

/-- R146: the payload is the raw bits. -/
theorem decResults_payload : s.payload = rawFn S L := by
  rw [State.payload, decResults_olen h, Nat.add_sub_cancel, decResults_output h, List.take_left]

end

/-- What the decode of a legal input delivers has the raw bits as its payload. -/
theorem dec_payload (S : Scheme) (hs : s.Started) (hl : s.LevelsLegal S) :
    ∃ t, exec (coreInstr true (.known S)) s = .next t ∧ t.payload = rawFn S s.inputSeq := by
  obtain ⟨t, hx, hr⟩ := dec_observes S hs hl
  exact ⟨t, hx, decResults_payload hr⟩

/-! The warnings of a decode (R134, R140, R147) -/

theorem kind_of_mem_padWarnings {pad : Nat} {w : Warning} (h : w ∈ padWarnings pad) : w.kind = .padding := by
  unfold padWarnings at h
  split at h
  · cases h
  · rw [List.mem_singleton.1 h]

theorem kind_of_mem_transitionWarnings {S : Scheme} {L : List Int} {w : Warning}
    (h : w ∈ transitionWarnings S L) : w.kind = .invalidTransition := by
  cases S with
  | man =>
    obtain ⟨k, -, rfl⟩ := List.mem_map.1 h
    rfl
  | nrz | nrzi | ami | dman | bpm | bps => cases h

/-- R140: the other decoders report no symbol. -/
theorem transitionWarnings_of_ne_man {S : Scheme} (hS : S ≠ .man) (L : List Int) : transitionWarnings S L = [] := by
  cases S with
  | man => exact absurd rfl hS
  | nrz | nrzi | ami | dman | bpm | bps => rfl

/-- Where no symbol is reported every warning is of the padding. -/
theorem decResults_only_padding {S : Scheme} {L : List Int} (h : s.results = decResults S L)
    (hL : transitionWarnings S L = []) : ∀ w ∈ s.warnings, w.kind = .padding := by
  intro w hw
  rw [decResults_warnings h, hL, List.nil_append] at hw
  exact kind_of_mem_padWarnings hw

/-- Settles O51: without `IT` records only the `PAD` record is left. -/
theorem onlyManchesterDetectsInvalidTransitions : Obligations.OnlyManchesterDetectsInvalidTransitions := by
  intro S s hS hs hl
  obtain ⟨t, hx, hr⟩ := dec_observes S hs hl
  exact ⟨t, hx, decResults_only_padding hr (transitionWarnings_of_ne_man hS _)⟩

/-! Padding (R146, R147) -/

/-- Only the element `00` stands for 0 (R75). -/
theorem eq_zero_of_sext2 {e : Elem} (h : sext2 e = 0) : e = 0 := by
  rw [← enc2_sext2 e, h]
  rfl

/-- R146: every element behind the raw bits is 0. -/
theorem decResults_readObuf_padding {S : Scheme} {L : List Int} (h : s.results = decResults S L) {i : Nat}
    (hr : (rawFn S L).length ≤ i) (hi : i < s.olen) : s.readObuf i = 0 := by
  have hpad : i - (rawFn S L).length < padCount (rawFn S L).length := by
    rw [decResults_olen h, decResults_padcnt h] at hi
    omega
  have ho := output_getElem? hi
  rw [decResults_output h, List.getElem?_append_right hr, List.getElem?_replicate_of_lt hpad] at ho
  exact eq_zero_of_sext2 (Option.some.inj ho).symm

/-- Settles O50: a decode delivers the triple of R130, whose output is the raw bits and `padCount` zeros; an encode
delivers as many elements as its scheme's symbols have and no warning. -/
theorem paddingIsCompleteAndReported : Obligations.PaddingIsCompleteAndReported := by
  intro S s hs
  refine ⟨fun hl => ?_, fun hl => ?_⟩
  · obtain ⟨t, hx, hr⟩ := dec_observes S hs hl
    have hraw : (rawFn S s.inputSeq).length = rawCount s.n S := by rw [rawFn_length, inputSeq_length]
    have hpad := decResults_padcnt hr
    have hlen := decResults_olen hr
    obtain ⟨hlt, hmod⟩ := padCount_spec (rawFn S s.inputSeq).length
    rw [← hpad] at hlt hmod
    refine ⟨t, hx, hlen ▸ hmod, hlt, hraw ▸ hlen, fun i hi => ?_, decResults_payload hr,
      transitionWarnings S s.inputSeq, fun w => kind_of_mem_transitionWarnings, ?_⟩
    · exact decResults_readObuf_padding hr (hraw ▸ hi)
    · rw [decResults_warnings hr, ← hpad]
      rfl
  · obtain ⟨t, hx, holen, hpad, hw⟩ := enc_counts S hs hl
    exact ⟨t, hx, holen, hpad, by rw [State.warnings, hw]; rfl⟩

/-! The biphase decoders (R136, R137, R150) -/

theorem b2i_beq_eq_complement (a b : Int) : b2i (a == b) = 1 - b2i (a != b) := by
  rw [b2i_beq, b2i_bne]
  split <;> rfl

/-- R137: `RAW_BPS` is the complement of `RAW_BPM`. -/
theorem rawBpsFn_eq_complement (L : List Int) : rawBpsFn L = (rawBpmFn L).map fun v => 1 - v := by
  rw [rawBpsFn, rawBpmFn, List.map_map]
  exact List.map_congr_left fun k _ => b2i_beq_eq_complement _ _

/-- Settles O47: both payloads are the raw bits. -/
theorem bpsComplementsBpm : Obligations.BpsComplementsBpm := by
  intro s hs hl
  obtain ⟨t, ht, hpt⟩ := dec_payload .bpm hs hl
  obtain ⟨u, hu, hpu⟩ := dec_payload .bps hs hl
  refine ⟨t, u, ht, hu, ?_⟩
  rw [hpu, hpt]
  exact rawBpsFn_eq_complement _

theorem tail_map_range (f : Nat → Int) (n : Nat) :
    ((List.range n).map f).tail = (List.range (n - 1)).map fun i => f (i + 1) := by
  cases n with
  | zero => rfl
  | succ n =>
    rw [List.range_succ_eq_map, List.map_cons, List.tail_cons, List.map_map]
    rfl

/-- A level of a legal sequence of a binary scheme is 0 or 1. -/
theorem binary_getD {L : List Int} (hL : ∀ v ∈ L, v ∈ bitAlphabet) {i : Nat} (h : i < L.length) :
    L.getD i 0 = 0 ∨ L.getD i 0 = 1 := by
  have := hL _ (List.getElem_mem h)
  simpa [bitAlphabet, h] using this

/-- R121: every whole symbol has a transition at its mid-point. -/
def Midpoints (L : List Int) : Prop := ∀ k < L.length / 2, L.getD (2 * k + 1) 0 = 1 - L.getD (2 * k) 0

/-- R150 (b): where every symbol has its mid-point transition, a first level differs from the level before it exactly
when it equals the first level of the symbol before it. -/
theorem rawDmanFn_eq_tail {L : List Int} (hL : ∀ v ∈ L, v ∈ bitAlphabet) (hm : Midpoints L) :
    rawDmanFn L = (rawBpmFn L).tail := by
  rw [rawBpmFn, tail_map_range, rawDmanFn]
  refine List.map_congr_left fun k hk => ?_
  have hk : k < L.length / 2 - 1 := List.mem_range.1 hk
  have hprev : prevLevel L (k + 1) = 1 - L.getD (2 * k) 0 := hm k (by omega)
  have h0 := binary_getD hL (i := 2 * k) (by omega)
  have h2 := binary_getD hL (i := 2 * k + 2) (by omega)
  rw [hprev, Nat.mul_succ]
  rcases h0 with h0 | h0 <;> rcases h2 with h2 | h2 <;> rw [h0, h2] <;> rfl

theorem midpoints_inputSeq (h : ∀ k < s.n / 2, s.input (2 * k + 1) = 1 - s.input (2 * k)) :
    Midpoints s.inputSeq := by
  intro k hk
  rw [inputSeq_length] at hk
  rw [inputSeq_getD s (by omega), inputSeq_getD s (by omega), h k hk]

/-- Settles O48: both payloads are the raw bits; the two schemes have the same alphabet. -/
theorem dmanIsTheTailOfBpm : Obligations.DmanIsTheTailOfBpm := by
  intro s hs hl hm
  obtain ⟨t, ht, hpt⟩ := dec_payload .bpm hs hl
  obtain ⟨u, hu, hpu⟩ := dec_payload .dman hs hl
  refine ⟨t, u, ht, hu, ?_⟩
  rw [hpu, hpt]
  exact rawDmanFn_eq_tail (levelsLegal_iff.1 hl) (midpoints_inputSeq hm)

/-! An unpaired last level (R138) -/

theorem getD_dropLast {L : List Int} {i : Nat} (h : i < L.length - 1) : L.dropLast.getD i 0 = L.getD i 0 := by
  rw [List.getD_eq_getElem?_getD, List.getElem?_dropLast, if_pos h, List.getD_eq_getElem?_getD]

theorem length_dropLast_half {L : List Int} (h : L.length % 2 = 1) : L.dropLast.length / 2 = L.length / 2 := by
  rw [List.length_dropLast]
  omega

theorem prevLevel_dropLast {L : List Int} {k : Nat} (h : 2 * k < L.length) :
    prevLevel L.dropLast k = prevLevel L k := by
  unfold prevLevel
  split_ifs with hk
  · rfl
  · exact getD_dropLast (by omega)

/-- R134: the pairs of the recursive form end before an unpaired level. -/
theorem rawManFrom_dropLast (prev : Int) {L : List Int} (h : L.length % 2 = 1) :
    rawManFrom prev L.dropLast = rawManFrom prev L := by
  induction prev, L using rawManFrom.induct with
  | case1 prev a b rest bit ih =>
    have hrest : rest.length % 2 = 1 := by simp only [List.length_cons] at h; omega
    obtain ⟨c, rest, rfl⟩ := List.exists_cons_of_length_pos (l := rest) (by omega)
    rw [List.dropLast_cons_cons, List.dropLast_cons_cons, rawManFrom, rawManFrom, ih hrest]
  | case2 L prev hL =>
    match L with
    | [] => rfl
    | [_] => rfl
    | a :: b :: rest => exact absurd rfl (hL a b rest)

theorem invalidSymbols_dropLast {L : List Int} (h : L.length % 2 = 1) :
    invalidSymbols L.dropLast = invalidSymbols L := by
  rw [invalidSymbols, invalidSymbols, length_dropLast_half h]
  refine List.filter_congr fun k hk => ?_
  have hk : k < L.length / 2 := List.mem_range.1 hk
  rw [getD_dropLast (by omega), getD_dropLast (by omega)]

theorem rawDmanFn_dropLast {L : List Int} (h : L.length % 2 = 1) : rawDmanFn L.dropLast = rawDmanFn L := by
  rw [rawDmanFn, rawDmanFn, length_dropLast_half h]
  refine List.map_congr_left fun k hk => ?_
  have hk : k < L.length / 2 - 1 := List.mem_range.1 hk
  rw [getD_dropLast (by omega), getD_dropLast (by omega)]

theorem rawBpmFn_dropLast {L : List Int} (h : L.length % 2 = 1) : rawBpmFn L.dropLast = rawBpmFn L := by
  rw [rawBpmFn, rawBpmFn, length_dropLast_half h]
  refine List.map_congr_left fun k hk => ?_
  have hk : k < L.length / 2 := List.mem_range.1 hk
  rw [getD_dropLast (by omega), prevLevel_dropLast (by omega)]

theorem rawFn_dropLast {S : Scheme} (hS : levelsPerBit S = 2) {L : List Int} (h : L.length % 2 = 1) :
    rawFn S L.dropLast = rawFn S L := by
  cases S with
  | nrz | nrzi | ami => cases hS
  | man => exact rawManFrom_dropLast 0 h
  | dman => exact rawDmanFn_dropLast h
  | bpm => exact rawBpmFn_dropLast h
  | bps => rw [rawFn, rawBpsFn_eq_complement, rawBpsFn_eq_complement, rawBpmFn_dropLast h]

theorem decResults_dropLast {S : Scheme} (hS : levelsPerBit S = 2) {L : List Int} (h : L.length % 2 = 1) :
    decResults S L.dropLast = decResults S L := by
  have hw : transitionWarnings S L.dropLast = transitionWarnings S L := by
    cases S with
    | man => rw [transitionWarnings, transitionWarnings, invalidSymbols_dropLast h]
    | nrz | nrzi | ami | dman | bpm | bps => rfl
  rw [decResults, decResults, rawFn_dropLast hS h, hw]

/-- Settles O49: the input without its last level is legal too, and the triple of R130 is the same for both. -/
theorem oddTrailingLevelIsIgnored : Obligations.OddTrailingLevelIsIgnored := by
  intro S s s' hS hs hs' hodd hl hin
  have hl' : s'.LevelsLegal S := levelsLegal_iff.2 fun v hv =>
    levelsLegal_iff.1 hl v (List.mem_of_mem_dropLast (hin ▸ hv))
  obtain ⟨t, hx, hr⟩ := dec_observes S hs hl
  obtain ⟨t', hx', hr'⟩ := dec_observes S hs' hl'
  refine ⟨t, t', hx, hx', ?_⟩
  rw [hr, hr', hin, decResults_dropLast hS (by rwa [inputSeq_length])]

end Sys2Proof.Machine
end

section
/-! PROOFS. O45 and O46: each raw function undoes its encoder's function on sequences, symbol by symbol, and so does a
decode of what an encode delivered. -/

namespace Sys2Proof.Machine

variable {s : State}

/-! The levels an encoder puts out (R118) -/

/-- Element k of the symbol of bit i. -/
theorem encFn_getD (S : Scheme) {B : List Int} {i k : Nat} (hi : i < B.length) (hk : k < levelsPerBit S) :
    (encFn S B).getD (levelsPerBit S * i + k) 0 = (encSymbol S B i).getD k 0 := by
  rw [List.getD_eq_getElem?_getD, Nat.mul_comm, encFn_getElem? S hi hk, List.getD_eq_getElem?_getD]

/-- R94: what `ENC.S` puts out is a legal input of `DEC.S`. -/
theorem encFn_legal (S : Scheme) {B : List Int} (hB : ∀ v ∈ B, v ∈ bitAlphabet) :
    ∀ v ∈ encFn S B, v ∈ levelAlphabet S := by
  intro v hv
  obtain rfl | rfl | ⟨rfl, rfl⟩ := encFn_range S B hB v hv
  · cases S <;> decide
  · cases S <;> decide
  · decide

theorem encFn_midpoints {S : Scheme} (hS : levelsPerBit S = 2) (B : List Int) : Midpoints (encFn S B) := by
  intro k hk
  rw [encFn_length, hS, Nat.mul_div_cancel_left _ two_pos] at hk
  obtain ⟨a, ha⟩ := encSymbol_midpoint hS B k
  have h0 := encFn_getD S (k := 0) hk (by omega)
  have h1 := encFn_getD S (k := 1) hk (by omega)
  rw [hS, ha] at h0 h1
  rw [h1]
  exact congrArg (1 - ·) h0.symm

/-! Counting the bits (R110) -/

theorem onesUpTo_eq_add {B : List Int} {k : Nat} (h : k < B.length) :
    onesUpTo B k = onesBefore B k + if B.getD k 0 = 1 then 1 else 0 := by
  rw [onesUpTo, List.take_succ_eq_append_getElem h, List.count_append, onesBefore]
  simp [List.count_cons, h]

/-- A 1-bit, and no 0-bit, changes the parity of the count it is added to. -/
theorem b2i_parity_bne {v : Int} (hv : v = 0 ∨ v = 1) (c : Nat) :
    b2i (parity (c + if v = 1 then 1 else 0) != parity c) = v := by
  rw [b2i_bne]
  rcases hv with rfl | rfl
  · exact if_pos rfl
  · refine if_neg ?_
    rw [if_pos rfl, parity_succ]
    omega

/-! Each raw function undoes its encoder (R149) -/

theorem tail_eq_map_range (B : List Int) : B.tail = (List.range (B.length - 1)).map fun i => B.getD (i + 1) 0 :=
  (congrArg List.tail (map_getD_range B)).symm.trans (tail_map_range _ _)

theorem rawNrziFn_encNrziFn {B : List Int} (hB : ∀ v ∈ B, v ∈ bitAlphabet) : rawNrziFn (encNrziFn B) = B.tail := by
  have hlen : (encNrziFn B).length = B.length := by simp [encNrziFn]
  rw [tail_eq_map_range, rawNrziFn, hlen]
  refine List.map_congr_left fun j hj => ?_
  have hj : j < B.length - 1 := List.mem_range.1 hj
  have level {i : Nat} (hi : i < B.length) : (encNrziFn B).getD i 0 = parity (onesUpTo B i) := by
    simp [encNrziFn, hi]
  rw [level (by omega), level (by omega), onesUpTo_eq_add (by omega), onesUpTo_eq]
  exact b2i_parity_bne (binary_getD hB (by omega)) _

theorem rawAmiFn_encAmiFn {B : List Int} (hB : ∀ v ∈ B, v ∈ bitAlphabet) : rawAmiFn (encAmiFn B) = B := by
  rw [rawAmiFn, encAmiFn, List.map_map]
  refine Eq.trans (List.map_congr_left fun i hi => ?_) (map_getD_range B)
  show b2i ((if B.getD i 0 = 0 then 0 else (-1) ^ onesUpTo B i) != 0) = B.getD i 0
  rcases binary_getD hB (List.mem_range.1 hi) with h | h <;> rw [h, b2i_bne] <;> simp

theorem encManFn_eq_flatMap (B : List Int) : encManFn B = B.flatMap fun v => [v, 1 - v] := by
  conv_rhs => rw [← map_getD_range B, List.flatMap_map]
  rfl

/-- R134: the symbol of a bit gives the bit, whatever came before. -/
theorem rawManFrom_symbols (prev : Int) {B : List Int} (hB : ∀ v ∈ B, v ∈ bitAlphabet) :
    rawManFrom prev (B.flatMap fun v => [v, 1 - v]) = B := by
  induction B generalizing prev with
  | nil => rfl
  | cons v B ih =>
    have ih := ih (prev := v) fun x hx => hB x (List.mem_cons_of_mem v hx)
    have hv : v = 0 ∨ v = 1 := by simpa [bitAlphabet] using hB v List.mem_cons_self
    rcases hv with rfl | rfl <;> simpa [rawManFrom] using ih

theorem rawManFn_encManFn {B : List Int} (hB : ∀ v ∈ B, v ∈ bitAlphabet) : rawManFn (encManFn B) = B := by
  rw [encManFn_eq_flatMap]
  exact rawManFrom_symbols 0 hB

/-- R136: the level before symbol k is that of the transitions so far: one a symbol, and one more for each 1-bit. -/
theorem prevLevel_encBpmFn {B : List Int} {k : Nat} (hk : k < B.length) :
    prevLevel (encBpmFn B) k = parity (onesBefore B k + k) := by
  cases k with
  | zero =>
    rw [onesBefore_zero]
    rfl
  | succ k => exact encFn_getD .bpm (k := 1) (Nat.lt_of_succ_lt hk) (by decide)

theorem rawBpmFn_encBpmFn {B : List Int} (hB : ∀ v ∈ B, v ∈ bitAlphabet) : rawBpmFn (encBpmFn B) = B := by
  have hlen : (encBpmFn B).length / 2 = B.length := by
    rw [show (encBpmFn B).length = 2 * B.length from encFn_length .bpm B, Nat.mul_div_cancel_left _ two_pos]
  rw [rawBpmFn, hlen]
  refine Eq.trans (List.map_congr_left fun k hk => ?_) (map_getD_range B)
  have hk : k < B.length := List.mem_range.1 hk
  have hlevel : (encBpmFn B).getD (2 * k) 0 = parity (onesUpTo B k + k) := encFn_getD .bpm (k := 0) hk (by decide)
  rw [hlevel, prevLevel_encBpmFn hk, onesUpTo_eq_add hk, Nat.add_right_comm]
  exact b2i_parity_bne (binary_getD hB hk) _

theorem complement_bits {B : List Int} (hB : ∀ v ∈ B, v ∈ bitAlphabet) :
    ∀ v ∈ B.map fun v => 1 - v, v ∈ bitAlphabet := by
  intro v hv
  obtain ⟨b, hb, rfl⟩ := List.mem_map.1 hv
  have hb : b = 0 ∨ b = 1 := by simpa [bitAlphabet] using hB b hb
  rcases hb with rfl | rfl <;> decide

/-- R117, R137: both sides of the BPS code complement those of BPM, and the two complements cancel. -/
theorem rawBpsFn_encBpsFn {B : List Int} (hB : ∀ v ∈ B, v ∈ bitAlphabet) : rawBpsFn (encBpsFn B) = B := by
  rw [encBpsFn_eq_encBpmFn_complement hB, rawBpsFn_eq_complement, rawBpmFn_encBpmFn (complement_bits hB),
    List.map_map]
  simp

/-- R150 (a), (b): the encoder's symbols all have their mid-point transition, so `DEC.DMAN` gives the tail of what
`DEC.BPM` gives. -/
theorem rawDmanFn_encDmanFn {B : List Int} (hB : ∀ v ∈ B, v ∈ bitAlphabet) : rawDmanFn (encDmanFn B) = B.tail := by
  have h : rawDmanFn (encDmanFn B) = (rawBpmFn (encBpmFn B)).tail :=
    rawDmanFn_eq_tail (encFn_legal .dman hB) (encFn_midpoints (S := .dman) rfl B)
  rw [h, rawBpmFn_encBpmFn hB]

/-- R149: the raw bits of an encoder's output. -/
theorem rawFn_encFn (S : Scheme) {B : List Int} (hB : ∀ v ∈ B, v ∈ bitAlphabet) :
    rawFn S (encFn S B) = if S = .nrzi ∨ S = .dman then B.tail else B := by
  cases S with
  | nrz => rfl
  | nrzi => exact rawNrziFn_encNrziFn hB
  | ami => exact rawAmiFn_encAmiFn hB
  | man => exact rawManFn_encManFn hB
  | dman => exact rawDmanFn_encDmanFn hB
  | bpm => exact rawBpmFn_encBpmFn hB
  | bps => exact rawBpsFn_encBpsFn hB

/-- R134: a symbol with a mid-point transition is valid. -/
theorem invalidSymbols_of_midpoints {L : List Int} (h : Midpoints L) : invalidSymbols L = [] := by
  refine List.filter_eq_nil_iff.2 fun k hk => ?_
  rw [h k (List.mem_range.1 hk), beq_iff_eq]
  omega

theorem transitionWarnings_encFn (S : Scheme) (B : List Int) : transitionWarnings S (encFn S B) = [] := by
  by_cases hS : S = .man
  · subst hS
    rw [transitionWarnings, invalidSymbols_of_midpoints (encFn_midpoints rfl B)]
    rfl
  · exact transitionWarnings_of_ne_man hS _

/-! Decoding what an encode delivered -/

/-- Any started transaction on the output of an encode decodes it as the raw function does. -/
theorem dec_of_encFn {S : Scheme} (D : Scheme) {B : List Int} (hB : ∀ v ∈ B, v ∈ bitAlphabet)
    (hD : levelAlphabet D = levelAlphabet S) (hs : s.Started) (hin : s.inputSeq = encFn S B) :
    ∃ u, exec (coreInstr true (.known D)) s = .next u ∧ u.results = decResults D (encFn S B) := by
  have hl : s.LevelsLegal D := levelsLegal_iff.2 (by rw [hin, hD]; exact encFn_legal S hB)
  rw [← hin]
  exact dec_observes D hs hl

/-- Settles O45: the decode delivers the triple of R130 for the encoder's output, whose raw bits are the bits and whose
symbols are all valid. -/
theorem roundTripRecoversTheBits : Obligations.RoundTripRecoversTheBits := by
  intro S s hs hl
  obtain ⟨w, -, hx⟩ := enc_delivers S hs hl
  refine ⟨_, hx, fun s' hs' hin => ?_⟩
  rw [enc_output S hs hl hx] at hin
  have hB := bitsLegal_iff.1 hl
  obtain ⟨u, hu, hr⟩ := dec_of_encFn S hB rfl hs' hin
  have hp := decResults_payload hr
  refine ⟨u, hu, decResults_err hr, hp.trans (rawFn_encFn S hB), ?_,
    decResults_only_padding hr (transitionWarnings_encFn S _)⟩
  rw [hp]
  exact decResults_output hr

/-- Settles O46: the two encoders put out the same levels, which `DEC.BPM` decodes to the bits and `DEC.DMAN` to their
tail. -/
theorem dmanAndBpmCrossDecode : Obligations.DmanAndBpmCrossDecode := by
  intro s hs hl
  obtain ⟨w, -, hx⟩ := enc_delivers .dman hs hl
  refine ⟨_, hx, (dmanAndBpmEncodeAlike s).symm.trans hx, fun s' hs' hin => ?_⟩
  rw [enc_output .dman hs hl hx] at hin
  have hB := bitsLegal_iff.1 hl
  obtain ⟨u, hu, hru⟩ := dec_of_encFn .bpm hB rfl hs' hin
  obtain ⟨v, hv, hrv⟩ := dec_of_encFn .dman hB rfl hs' hin
  exact ⟨⟨u, hu, (decResults_payload hru).trans (rawBpmFn_encBpmFn hB)⟩,
    ⟨v, hv, (decResults_payload hrv).trans (rawDmanFn_encDmanFn hB)⟩⟩

end Sys2Proof.Machine
end

section
/-! PROOFS. O35, O36, O37 and O39: what `NOISE` does in each of its cases, the levels it puts out, and its status. -/

namespace Sys2Proof.Machine

variable {s t : State}

/-! The cases of `NOISE` (R164, R168) -/

theorem noiseLegal_iff (S : Scheme) :
    s.noiseLegal S = true ↔ ∀ i < s.nlen, s.noiseInput i ∈ levelAlphabet S := by
  simp [State.noiseLegal]

theorem noise_reserved (hu : s.cfg.hasNoiseUnit = true) :
    exec (.noise .reserved) s = .next (s.noiseRaise .invalidScheme) := if_pos hu

theorem noise_invalidProbability (S : Scheme) (hu : s.cfg.hasNoiseUnit = true) (hp : s.nprob < 0 ∨ 1 < s.nprob) :
    exec (.noise (.known S)) s = .next (s.noiseRaise .invalidProbability) := (if_pos hu).trans (if_pos hp)

/-- With a unit, a probability in [0, 1] and a length within the capacity, the levels decide. -/
theorem noise_checked (S : Scheme) (hu : s.cfg.hasNoiseUnit = true) (h0 : 0 ≤ s.nprob) (h1 : s.nprob ≤ 1)
    (hn : s.nlen ≤ s.cfg.noiseCap) : exec (.noise (.known S)) s =
      if s.noiseLegal S then .next (s.noiseFinish S) else .refused .noiseLevelUnspecified := by
  have hp : ¬ (s.nprob < 0 ∨ 1 < s.nprob) := not_or.2 ⟨not_lt.2 h0, not_lt.2 h1⟩
  exact (if_pos hu).trans ((if_neg hp).trans (if_neg (not_lt.2 hn)))

theorem noise_legal (S : Scheme) (hu : s.cfg.hasNoiseUnit = true) (h0 : 0 ≤ s.nprob) (h1 : s.nprob ≤ 1)
    (hn : s.nlen ≤ s.cfg.noiseCap) (hl : ∀ i < s.nlen, s.noiseInput i ∈ levelAlphabet S) :
    exec (.noise (.known S)) s = .next (s.noiseFinish S) :=
  (noise_checked S hu h0 h1 hn).trans (if_pos ((noiseLegal_iff S).2 hl))

theorem noise_illegal (S : Scheme) (hu : s.cfg.hasNoiseUnit = true) (h0 : 0 ≤ s.nprob) (h1 : s.nprob ≤ 1)
    (hn : s.nlen ≤ s.cfg.noiseCap) (hl : ¬ ∀ i < s.nlen, s.noiseInput i ∈ levelAlphabet S) :
    exec (.noise (.known S)) s = .refused .noiseLevelUnspecified :=
  (noise_checked S hu h0 h1 hn).trans (if_neg (mt (noiseLegal_iff S).1 hl))

/-- A `NOISE` of a scheme that goes on has found a probability outside [0, 1], or has put out its levels. -/
theorem noise_known_next {S : Scheme} (hx : exec (.noise (.known S)) s = .next t) :
    ((s.nprob < 0 ∨ 1 < s.nprob) ∧ t = s.noiseRaise .invalidProbability) ∨
    ((∀ i < s.nlen, s.noiseInput i ∈ levelAlphabet S) ∧ t = s.noiseFinish S) := by
  obtain h | h | h | ⟨hr, -⟩ | ⟨-, hp, h⟩ | ⟨S', hS, -, -, -, -, hl, h⟩ := noise_cases (.known S) s
  · cases h.symm.trans hx
  · cases h.symm.trans hx
  · cases h.symm.trans hx
  · cases hr
  · exact .inl ⟨hp, Host.Outcome.next.inj (hx.symm.trans h)⟩
  · cases hS
    exact .inr ⟨(noiseLegal_iff S).1 hl, Host.Outcome.next.inj (hx.symm.trans h)⟩

/-- With a probability in [0, 1], a `NOISE` of a scheme that goes on has put out its levels. -/
theorem noise_known_next_of_prob {S : Scheme} (h0 : 0 ≤ s.nprob) (h1 : s.nprob ≤ 1)
    (hx : exec (.noise (.known S)) s = .next t) :
    (∀ i < s.nlen, s.noiseInput i ∈ levelAlphabet S) ∧ t = s.noiseFinish S :=
  (noise_known_next hx).resolve_left fun h => h.1.elim (not_lt.2 h0) (not_lt.2 h1)

/-! The levels `NOISE` puts out (R163, R164) -/

theorem flipLevel_eq (S : Scheme) (v : Int) :
    flipLevel S v = if S ≠ .ami then 1 - v else if v = 1 ∨ v = -1 then 0 else 1 := by
  cases S with
  | ami => simp [flipLevel]
  | nrz | nrzi | man | dman | bpm | bps => rfl

/-- R166: a flip stays in the alphabet. -/
theorem flipLevel_mem {S : Scheme} {v : Int} (hv : v ∈ levelAlphabet S) : flipLevel S v ∈ levelAlphabet S := by
  revert v
  cases S <;> decide

theorem levelAlphabet_range {S : Scheme} {v : Int} (hv : v ∈ levelAlphabet S) : -1 ≤ v ∧ v ≤ 1 := by
  revert v
  cases S <;> decide

theorem sext2_enc2_of_mem {S : Scheme} {v : Int} (hv : v ∈ levelAlphabet S) : sext2 (enc2 v) = v := by
  have h := levelAlphabet_range hv
  exact sext2_enc2 (by omega) h.2

theorem noisyLevel_mem {S : Scheme} {i : Nat} (h : s.noiseInput i ∈ levelAlphabet S) :
    s.noisyLevel S i ∈ levelAlphabet S := by
  unfold State.noisyLevel
  split
  · exact flipLevel_mem h
  · exact h

theorem noisyLevel_eq (S : Scheme) (i : Nat) : s.noisyLevel S i =
    if flipMask s.nprob s.ndraws i = false then s.noiseInput i
    else if S ≠ .ami then 1 - s.noiseInput i
    else if s.noiseInput i = 1 ∨ s.noiseInput i = -1 then 0
    else 1 := by
  rw [← flipLevel_eq, State.noisyLevel]
  cases flipMask s.nprob s.ndraws i <;> rfl

theorem noisyLevel_prob_zero (S : Scheme) (i : Nat) (h : s.nprob = 0) : s.noisyLevel S i = s.noiseInput i := by
  have hm : flipMask s.nprob s.ndraws i = false := if_pos h.le
  rw [noisyLevel_eq, if_pos hm]

theorem noisyLevel_prob_one (S : Scheme) (i : Nat) (h : s.nprob = 1) :
    s.noisyLevel S i = flipLevel S (s.noiseInput i) := by
  have hm : flipMask s.nprob s.ndraws i = true := by
    rw [h]
    exact (if_neg (by decide)).trans (if_pos le_rfl)
  rw [State.noisyLevel, if_pos hm]

/-- R165: what every level of the alphabet becomes at p = 1. -/
theorem flipLevel_of_mem {S : Scheme} {v : Int} (hv : v ∈ levelAlphabet S) :
    flipLevel S v = if S = .ami then (if v = 0 then 1 else 0) else 1 - v := by
  revert v
  cases S <;> decide

/-! The output of `NOISE` (R164) -/

theorem noiseFinish_nout_length (S : Scheme) : (s.noiseFinish S).nout.length = s.nlen := by
  simp [State.noiseFinish]

theorem noiseFinish_readNout (S : Scheme) {i : Nat} (hi : i < s.nlen) :
    (s.noiseFinish S).readNout i = enc2 (s.noisyLevel S i) := by
  simp [State.readNout, State.noiseFinish, hi]

/-- On levels of the alphabet the elements of the output read back as the levels put out. -/
theorem noiseFinish_level {S : Scheme} (hl : ∀ i < s.nlen, s.noiseInput i ∈ levelAlphabet S) {i : Nat}
    (hi : i < s.nlen) : sext2 ((s.noiseFinish S).readNout i) = s.noisyLevel S i := by
  rw [noiseFinish_readNout S hi, sext2_enc2_of_mem (noisyLevel_mem (hl i hi))]

/-- Settles O35: the checks before that of the levels pass, and the levels put out are those of R164. -/
theorem noiseFlipsUnderTheMask : Obligations.NoiseFlipsUnderTheMask := by
  intro s S hu h0 h1 hn
  refine ⟨fun hl => ?_, fun ⟨i, hi, hl⟩ => noise_illegal S hu h0 h1 hn fun h => hl (h i hi)⟩
  rw [noise_legal S hu h0 h1 hn hl, State.noiseFinish]
  simp only [noisyLevel_eq]

/-- Settles O36: at p = 0 and p = 1 `NOISE` goes on only by putting out its levels, with none and with all flipped. -/
theorem noiseAtTheExtremes : Obligations.NoiseAtTheExtremes := by
  intro s t S hx
  refine ⟨fun hp i hi => ?_, fun hp i hi => ?_⟩
  · obtain ⟨hl, rfl⟩ := noise_known_next_of_prob (by rw [hp]) (by rw [hp]; decide) hx
    rw [noiseFinish_level hl hi, noisyLevel_prob_zero S i hp]
  · obtain ⟨hl, rfl⟩ := noise_known_next_of_prob (by rw [hp]; decide) (by rw [hp]) hx
    rw [noiseFinish_level hl hi, noisyLevel_prob_one S i hp, flipLevel_of_mem (hl i hi)]

/-- Settles O39: status 0 rules out the error, and every level put out is in the alphabet. -/
theorem noiseStaysInTheAlphabet : Obligations.NoiseStaysInTheAlphabet := by
  intro s t S hx hst
  obtain ⟨-, rfl⟩ | ⟨hl, rfl⟩ := noise_known_next hx
  · cases hst
  · refine ⟨noiseFinish_nout_length S, fun e he => ?_⟩
    obtain ⟨i, hi, rfl⟩ := List.mem_map.1 he
    have hm := noisyLevel_mem (hl i (List.mem_range.1 hi))
    rwa [sext2_enc2_of_mem hm]

/-! The status of the unit (R168) -/

theorem hostReadNstatus_present (hu : s.cfg.hasNoiseUnit = true) : hostReadNstatus s = some s.nstatus.code := if_pos hu

/-- Settles O37: the scheme id is checked first, then the probability; the host reads the code of the status. -/
theorem noiseErrors : Obligations.NoiseErrors := by
  intro s hu
  have code {e : NoiseErr} (he : s.nstatus = e) : hostReadNstatus s = some e.code := he ▸ hostReadNstatus_present hu
  exact ⟨noise_reserved hu, fun S hp => noise_invalidProbability S hu hp, code, code, code⟩

end Sys2Proof.Machine
end

section
/-! PROOFS. O40: neither part of the state enters the other's operations. -/

namespace Sys2Proof.Machine

variable {s t u : State}

/-! What no operation of CORE changes of the noise unit, and `NOISE` of CORE (R160) -/

/-- The noise unit's part of `s`, with the parameters and the reset counter, beside the rest of `c`. -/
def withCoreOf (c s : State) : State :=
  { c with
    nin := s.nin, nlen := s.nlen, nout := s.nout, nscheme := s.nscheme, nprob := s.nprob, nstatus := s.nstatus
    ndraws := s.ndraws, era := s.era, cfg := s.cfg }

theorem sameNoise_withCoreOf (c : State) : s.sameNoise (withCoreOf c s) :=
  ⟨rfl, rfl, rfl, rfl, rfl, rfl, rfl, rfl, rfl⟩

theorem sameNoise_iff : s.sameNoise t ↔ t = withCoreOf t s := by
  refine ⟨fun ⟨hnin, hnlen, hnout, hnscheme, hnprob, hnstatus, hndraws, hera, hcfg⟩ => ?_,
    fun h => h ▸ sameNoise_withCoreOf t⟩
  rw [withCoreOf, ← hnin, ← hnlen, ← hnout, ← hnscheme, ← hnprob, ← hnstatus, ← hndraws, ← hera, ← hcfg]

theorem respects_sameNoise : Respects State.sameNoise where
  refl _ := sameNoise_iff.2 rfl
  trans s t u h k := sameNoise_iff.2 <| calc
    u = withCoreOf u t := sameNoise_iff.1 k
    _ = withCoreOf u (withCoreOf t s) := congrArg (withCoreOf u) (sameNoise_iff.1 h)
    _ = withCoreOf u s := rfl
  emit _ _ := sameNoise_iff.2 rfl
  warn _ _ _ := sameNoise_iff.2 rfl
  advance _ _ := sameNoise_iff.2 rfl
  finish _ _ := sameNoise_iff.2 rfl
  raise _ _ := sameNoise_iff.2 rfl

theorem coreInstr_ne_noise (dir : Bool) (sid sid' : SchemeId) : coreInstr dir sid ≠ .noise sid' := by
  cases sid with
  | reserved => cases dir <;> nofun
  | known S => cases dir <;> cases S <;> nofun

theorem core_sameNoise {dir : Bool} {sid : SchemeId} (hx : exec (coreInstr dir sid) s = .next t) : s.sameNoise t := by
  refine respects_sameNoise.exec _ ?_ ?_ ?_ ?_ (fun sid' h => absurd h (coreInstr_ne_noise dir sid sid')) hx
  · exact fun _ _ _ => sameNoise_iff.2 rfl
  · exact fun _ _ => sameNoise_iff.2 rfl
  · exact fun _ _ _ => sameNoise_iff.2 rfl
  · exact fun _ _ => sameNoise_iff.2 rfl

theorem noise_sameCore {sid : SchemeId} (hx : exec (.noise sid) s = .next t) : s.sameCore t := by
  obtain ⟨e, rfl⟩ | ⟨S, -, rfl⟩ := noise_next hx <;> rfl

/-! The operations of CORE do not depend on the noise unit (R160) -/

/-- The CORE part of `s` beside the noise unit and the events of `u`. -/
def withUnitOf (u s : State) : State :=
  { s with
    nin := u.nin, nlen := u.nlen, nout := u.nout, nscheme := u.nscheme, nprob := u.nprob, nstatus := u.nstatus
    ndraws := u.ndraws, events := u.events }

theorem sameCore_withUnitOf (u : State) : s.sameCore (withUnitOf u s) := rfl

theorem eq_withUnitOf_of_sameCore (h : s.sameCore t) : t = withUnitOf t s := h

/-- A move of the state that works on CORE alone: it goes the same way whatever noise unit stands beside it. -/
def CoreOnly (f : State → State) : Prop := ∀ u, Function.Commute f (withUnitOf u)

theorem CoreOnly.comp {f g : State → State} (hf : CoreOnly f) (hg : CoreOnly g) : CoreOnly fun s => f (g s) :=
  fun u => (hf u).comp_left (hg u)

/-- A branch on a condition that reads CORE alone. -/
theorem CoreOnly.ite {c : State → Prop} [DecidablePred c] {f g : State → State}
    (hc : ∀ u s, c (withUnitOf u s) ↔ c s) (hf : CoreOnly f) (hg : CoreOnly g) :
    CoreOnly fun s => if c s then f s else g s := by
  intro u s
  by_cases h : c s
  · simp only [if_pos h, if_pos ((hc u s).2 h)]
    exact hf u s
  · simp only [if_neg h, if_neg (mt (hc u s).1 h)]
    exact hg u s

/-- R102: a counted loop over a body that works on CORE alone, with a count read from CORE. -/
theorem CoreOnly.loop {body : State → State} (hb : CoreOnly body) (stride : Nat) {count : State → Nat}
    (hc : ∀ u s, count (withUnitOf u s) = count s) : CoreOnly fun s => countedLoop stride body (count s) s := by
  have loop (k : Nat) : CoreOnly (countedLoop stride body k) := by
    intro u
    induction k with
    | zero => exact fun _ => rfl
    | succ k ih =>
      intro s
      have hstep : (body (withUnitOf u s)).advance stride = withUnitOf u ((body s).advance stride) :=
        congrArg (State.advance · stride) (hb u s)
      rw [countedLoop, hstep, ih, countedLoop]
  exact fun u s => (congrArg (countedLoop stride body · _) (hc u s)).trans (loop _ u s)

theorem coreOnly_emitAll (vs : List Int) : CoreOnly (State.emitAll · vs) := by
  intro u s
  induction vs generalizing s with
  | nil => rfl
  | cons v vs ih => exact ih (s.emit v)

theorem coreOnly_padAndFinish : CoreOnly State.padAndFinish := by
  have pad (k : Nat) : CoreOnly (State.padZeros · k) :=
    .ite (fun _ _ => Iff.rfl) (fun _ _ => rfl)
      (CoreOnly.comp (f := (State.warn · .padding k)) (fun _ _ => rfl) (coreOnly_emitAll _))
  exact fun u s => congrArg (State.finish · (padCount s.optr)) (pad _ u s)

theorem transact_withUnitOf {legal : List Int} {e : ErrCode} {body : State → State} (hb : CoreOnly body)
    (hx : transact legal e body s = .next t) :
    transact legal e body (withUnitOf u s) = .next (withUnitOf u t) := by
  obtain ⟨-, h⟩ | ⟨hn, hl, h⟩ | ⟨hn, hl, h⟩ := transact_cases s (legal := legal) (e := e) (body := body)
  · cases h.symm.trans hx
  · obtain rfl := Host.Outcome.next.inj (h.symm.trans hx)
    exact (transact_legal (withUnitOf u s) hn hl).trans (congrArg _ (hb u s))
  · obtain rfl := Host.Outcome.next.inj (h.symm.trans hx)
    exact transact_illegal (withUnitOf u s) hn hl

theorem encodeWith_withUnitOf {body : State → State} (hb : CoreOnly body) (hx : encodeWith body s = .next t) :
    encodeWith body (withUnitOf u s) = .next (withUnitOf u t) :=
  transact_withUnitOf (CoreOnly.comp (f := (State.finish · 0)) (fun _ _ => rfl) (hb.loop 1 fun _ _ => rfl)) hx

theorem decodeWith_withUnitOf {S : Scheme} {raw : State → State} (hr : CoreOnly raw)
    (hx : decodeWith S raw s = .next t) : decodeWith S raw (withUnitOf u s) = .next (withUnitOf u t) :=
  transact_withUnitOf (coreOnly_padAndFinish.comp hr) hx

theorem coreOnly_encAmiBody : CoreOnly encAmiBody :=
  .ite (c := fun s => (s.input s.idx == 0) = true) (fun _ _ => Iff.rfl) (fun _ _ => rfl) (fun _ _ => rfl)

theorem coreOnly_encManBody : CoreOnly encManBody :=
  .ite (c := fun s => (s.input s.idx == 0) = true) (fun _ _ => Iff.rfl) (fun _ _ => rfl) (fun _ _ => rfl)

theorem coreOnly_decNrziRaw : CoreOnly decNrziRaw :=
  .ite (c := fun s => s.n = 0) (fun _ _ => Iff.rfl) (fun _ _ => rfl) <|
    .comp (g := (State.advance · 1))
      (.loop (body := decNrziBody) (fun _ _ => rfl) 1 (count := fun s => s.n - 1) fun _ _ => rfl) (fun _ _ => rfl)

theorem coreOnly_decManBody : CoreOnly decManBody :=
  .ite (c := fun s => (s.input s.idx == 0 && s.input (s.idx + 1) == 1) = true) (fun _ _ => Iff.rfl) (fun _ _ => rfl) <|
    .ite (c := fun s => (s.input s.idx == 1 && s.input (s.idx + 1) == 0) = true) (fun _ _ => Iff.rfl) (fun _ _ => rfl)
      (fun _ _ => rfl)

/-- R160: an operation of CORE goes the same way beside another noise unit. -/
theorem exec_withUnitOf {i : Instr} (hi : ∀ sid, i ≠ .noise sid) (hx : exec i s = .next t) :
    exec i (withUnitOf u s) = .next (withUnitOf u t) := by
  cases i with
  | encNrz => exact encodeWith_withUnitOf (body := encNrzBody) (fun _ _ => rfl) hx
  | encNrzi => exact encodeWith_withUnitOf (body := encNrziBody) (fun _ _ => rfl) hx
  | encAmi => exact encodeWith_withUnitOf coreOnly_encAmiBody hx
  | encMan => exact encodeWith_withUnitOf coreOnly_encManBody hx
  | encDman => exact encodeWith_withUnitOf (body := encDmanBody) (fun _ _ => rfl) hx
  | encBpm => exact encodeWith_withUnitOf (body := encBpmBody) (fun _ _ => rfl) hx
  | encBps => exact encodeWith_withUnitOf (body := encBpsBody) (fun _ _ => rfl) hx
  | decNrz => exact decodeWith_withUnitOf (.loop (body := decNrzBody) (fun _ _ => rfl) 1 fun _ _ => rfl) hx
  | decNrzi => exact decodeWith_withUnitOf coreOnly_decNrziRaw hx
  | decAmi => exact decodeWith_withUnitOf (.loop (body := decAmiBody) (fun _ _ => rfl) 1 fun _ _ => rfl) hx
  | decMan => exact decodeWith_withUnitOf (coreOnly_decManBody.loop 2 fun _ _ => rfl) hx
  | decDman => exact decodeWith_withUnitOf (.loop (body := decDmanBody) (fun _ _ => rfl) 2 fun _ _ => rfl) hx
  | decBpm => exact decodeWith_withUnitOf (.loop (body := decBpmBody) (fun _ _ => rfl) 2 fun _ _ => rfl) hx
  | decBps => exact decodeWith_withUnitOf (.loop (body := decBpsBody) (fun _ _ => rfl) 2 fun _ _ => rfl) hx
  | reservedEnc7 | reservedDec7 => exact Host.Outcome.next.inj hx ▸ rfl
  | noise sid => exact absurd rfl (hi sid)

/-! `NOISE` does not depend on CORE (R160) -/

theorem hasNoiseUnit_of_next {sid : SchemeId} (hx : exec (.noise sid) s = .next t) : s.cfg.hasNoiseUnit = true := by
  by_contra h
  cases hx.symm.trans (noise_absent sid (eq_false_of_ne_true h))

/-- R160: the checks of `NOISE` and its output read the noise unit alone. -/
theorem noise_withCoreOf (c : State) {sid : SchemeId} (hx : exec (.noise sid) s = .next t) :
    exec (.noise sid) (withCoreOf c s) = .next (withCoreOf c t) := by
  have hu := hasNoiseUnit_of_next hx
  obtain h | h | h | ⟨rfl, h⟩ | ⟨⟨S, rfl⟩, hp, h⟩ | ⟨S, rfl, -, h0, h1, hn, hl, h⟩ := noise_cases sid s
  · cases h.symm.trans hx
  · cases h.symm.trans hx
  · cases h.symm.trans hx
  · obtain rfl := Host.Outcome.next.inj (h.symm.trans hx)
    exact noise_reserved (s := withCoreOf c s) hu
  · obtain rfl := Host.Outcome.next.inj (h.symm.trans hx)
    exact noise_invalidProbability (s := withCoreOf c s) S hu hp
  · obtain rfl := Host.Outcome.next.inj (h.symm.trans hx)
    exact noise_legal (s := withCoreOf c s) S hu h0 h1 hn ((noiseLegal_iff S).1 hl)

/-- Settles O40: each side's operations change nothing of the other, and go the same way whatever stands beside them. -/
theorem noiseAndCoreAreSeparate : Obligations.NoiseAndCoreAreSeparate := by
  refine ⟨fun _ _ _ => noise_sameCore, fun _ _ _ _ => core_sameNoise, fun s s' t dir sid h hx => ?_,
    fun s s' t sid h hx => ?_⟩
  · rw [eq_withUnitOf_of_sameCore h]
    exact ⟨_, exec_withUnitOf (coreInstr_ne_noise dir sid) hx, sameCore_withUnitOf s'⟩
  · rw [sameNoise_iff.1 h]
    exact ⟨_, noise_withCoreOf s' hx, sameNoise_withCoreOf s'⟩

end Sys2Proof.Machine
end

section
/-! PROOFS. O15 to O20: how the idle state is left, and the `ERR` code every operation of CORE ends with. -/

namespace Sys2Proof.Machine

variable {s t : State}

/-! Leaving the idle state (R200) -/

/-- R91, R214: only a write of `CMD` sets `BUSY`. -/
theorem hostWrite_sets_busy {w : HostWrite} (hb : s.busy = false) (hx : hostWrite w s = .next t)
    (ht : t.busy = true) : ∃ v, w = .reg 0 v := by
  have leaves_idle : t.busy ≠ s.busy := by rw [hb, ht]; decide
  obtain rfl | ⟨-, -, v, hw, -⟩ | ⟨-, v, -, rfl⟩ | ⟨-, i, v, -, -, rfl⟩ | ⟨i, v, -, -, rfl⟩ | ⟨v, -, rfl⟩ |
    ⟨p, -, rfl⟩ := hostWrite_cases hx
  case inr.inl => exact ⟨v, hw⟩
  all_goals exact absurd rfl leaves_idle

theorem noise_busy {sid : SchemeId} (hx : exec (.noise sid) s = .next t) : t.busy = s.busy := by
  obtain ⟨e, rfl⟩ | ⟨S, -, rfl⟩ := noise_next hx <;> rfl

theorem step_idle_noEvent (hb : s.busy = false) (he : s.events = []) : step s = .next s := by
  rw [step, fetch, he]
  simp [engineMove, hb]

/-- Settles O15, by the cases of a step: none but a host write can set `BUSY`. -/
theorem onlyACmdWriteLeavesIdle : Obligations.OnlyACmdWriteLeavesIdle := by
  refine ⟨fun _ => step_idle_noEvent, fun s t hb hx ht => ?_⟩
  have leaves_idle : t.busy ≠ s.busy := by rw [hb, ht]; decide
  obtain ⟨hb', -⟩ | ⟨-, -, hs⟩ | ⟨-, rest, -, hs⟩ | ⟨w, rest, he, hs⟩ | ⟨v, rest, -, hs⟩ | ⟨rest, -, hs⟩ := step_cases s
  · cases hb.symm.trans hb'
  · exact absurd (Host.Outcome.next.inj (hs.symm.trans hx) ▸ rfl) leaves_idle
  · exact absurd (Host.Outcome.next.inj (hs.symm.trans hx) ▸ rfl) leaves_idle
  · obtain ⟨v, rfl⟩ := hostWrite_sets_busy (s := { s with events := rest }) hb (hs.symm.trans hx) ht
    exact ⟨v, rest, he⟩
  · exact absurd (noise_busy (hs.symm.trans hx)) leaves_idle
  · obtain rfl := Host.Outcome.next.inj (hs.symm.trans hx)
    cases ht

/-! The error code of every operation of CORE (R181 to R183, R187) -/

/-- R93, R181: a reserved word is error entry, whatever the input is. -/
theorem exec_reserved (dir : Bool) : exec (coreInstr dir .reserved) s = .next (s.raise .invalidScheme) := by
  cases dir <;> rfl

/-- R94: the code a checked operation ends with, when its body ends without an error. -/
theorem transact_err {legal : List Int} {e : ErrCode} {body : State → State} (hn : s.n ≤ s.cfg.maxIn)
    (hb : (body s).err = .noError) : ∃ t, transact legal e body s = .next t ∧
      t.err = if ∀ i < s.n, s.input i ∈ legal then .noError else e := by
  rw [transact, if_neg (Nat.not_lt.2 hn)]
  by_cases hl : ∀ i < s.n, s.input i ∈ legal
  · rw [if_pos hl, if_pos ((elementsLegal_iff_lt s legal).2 hl)]
    exact ⟨_, rfl, hb⟩
  · rw [if_neg hl, if_neg (mt (elementsLegal_iff_lt s legal).1 hl)]
    exact ⟨_, rfl, rfl⟩

theorem encodeWith_err {body : State → State} (hn : s.n ≤ s.cfg.maxIn) : ∃ t, encodeWith body s = .next t ∧
    t.err = if s.BitsLegal then .noError else .invalidBit := transact_err hn rfl

theorem decodeWith_err {S : Scheme} {raw : State → State} (hn : s.n ≤ s.cfg.maxIn) :
    ∃ t, decodeWith S raw s = .next t ∧ t.err = if s.LevelsLegal S then .noError else .invalidLevel :=
  transact_err hn rfl

/-- R182: the code of an encode, from whatever working registers. -/
theorem enc_err (S : Scheme) (hn : s.n ≤ s.cfg.maxIn) : ∃ t, exec (coreInstr false (.known S)) s = .next t ∧
    t.err = if s.BitsLegal then .noError else .invalidBit := by
  cases S <;> exact encodeWith_err hn

/-- R183: the code of a decode, from whatever working registers. -/
theorem dec_err (S : Scheme) (hn : s.n ≤ s.cfg.maxIn) : ∃ t, exec (coreInstr true (.known S)) s = .next t ∧
    t.err = if s.LevelsLegal S then .noError else .invalidLevel := by
  cases S <;> exact decodeWith_err hn

/-- An operation of a scheme goes on only when its input fits `IBUF` (R30, U1). -/
theorem known_fits {dir : Bool} {S : Scheme} (hx : exec (coreInstr dir (.known S)) s = .next t) :
    s.n ≤ s.cfg.maxIn := by
  by_contra h
  cases (known_unfit dir S (Nat.not_le.1 h)).symm.trans hx

/-- Settles O16: the three ways into error entry. -/
theorem errorEntryChangesFiveFields : Obligations.ErrorEntryChangesFiveFields :=
  ⟨fun _ dir => exec_reserved dir, fun _ S hn hl => enc_illegal S hn hl, fun _ S hn hl => dec_illegal S hn hl⟩

/-- Settles O17: a reserved word is error entry with that code, and an operation of a scheme ends with no error or with
the code of its own direction. -/
theorem onlyReservedWordsRaiseSchemeError : Obligations.OnlyReservedWordsRaiseSchemeError := by
  refine ⟨fun s dir => ⟨_, exec_reserved dir, rfl⟩, fun s t dir S hx => ?_⟩
  have hn := known_fits hx
  cases dir
  · obtain ⟨u, hu, he⟩ := enc_err S hn
    obtain rfl := Host.Outcome.next.inj (hu.symm.trans hx)
    rw [he]
    split <;> decide
  · obtain ⟨u, hu, he⟩ := dec_err S hn
    obtain rfl := Host.Outcome.next.inj (hu.symm.trans hx)
    rw [he]
    split <;> decide

/-! Illegal elements by their values (R75, R182, R183) -/

theorem not_mem_bitAlphabet {v : Int} (hl : -2 ≤ v) (hu : v ≤ 1) : v ∉ bitAlphabet ↔ v = -1 ∨ v = -2 := by
  simp only [bitAlphabet, List.mem_cons, List.not_mem_nil, or_false]
  omega

theorem levelAlphabet_binary {S : Scheme} (h : S ≠ .ami) : levelAlphabet S = bitAlphabet := by
  cases S
  case ami => exact absurd rfl h
  all_goals rfl

theorem not_mem_levelAlphabet (S : Scheme) {v : Int} (hl : -2 ≤ v) (hu : v ≤ 1) :
    v ∉ levelAlphabet S ↔ v = -2 ∨ (S ≠ .ami ∧ v = -1) := by
  by_cases hS : S = .ami
  · subst hS
    simp only [levelAlphabet, List.mem_cons, List.not_mem_nil, or_false, ne_eq, not_true, false_and]
    omega
  · rw [levelAlphabet_binary hS, not_mem_bitAlphabet hl hu, or_comm]
    simp only [ne_eq, hS, not_false_eq_true, true_and]

theorem input_range (i : Nat) : -2 ≤ s.input i ∧ s.input i ≤ 1 := sext2_range _

theorem not_bitsLegal_iff : ¬ s.BitsLegal ↔ ∃ i < s.n, s.input i = -1 ∨ s.input i = -2 := by
  simp only [State.BitsLegal, not_forall, exists_prop, not_mem_bitAlphabet (input_range _).1 (input_range _).2]

theorem not_levelsLegal_iff {S : Scheme} :
    ¬ s.LevelsLegal S ↔ ∃ i < s.n, s.input i = -2 ∨ (S ≠ .ami ∧ s.input i = -1) := by
  simp only [State.LevelsLegal, not_forall, exists_prop, not_mem_levelAlphabet S (input_range _).1 (input_range _).2]

/-- Settles O18: the code of an encode is 2 exactly on illegal bits, and that of a decode is 0 or 3. -/
theorem invalidBitExactlyOnIllegalBits : Obligations.InvalidBitExactlyOnIllegalBits := by
  intro s S hn
  obtain ⟨t, ht, he⟩ := enc_err S hn
  obtain ⟨u, hu, hd⟩ := dec_err S hn
  refine ⟨⟨t, ht, ?_⟩, u, hu, ?_⟩
  · rw [he, ← not_bitsLegal_iff]
    split
    next hl => exact iff_of_false (by decide) (not_not_intro hl)
    next hl => exact iff_of_true rfl hl
  · rw [hd]
    split <;> decide

/-- Settles O19: the code of a decode is 3 exactly on illegal levels, and that of an encode is 0 or 2. -/
theorem invalidLevelExactlyOnIllegalLevels : Obligations.InvalidLevelExactlyOnIllegalLevels := by
  intro s S hn
  obtain ⟨t, ht, he⟩ := enc_err S hn
  obtain ⟨u, hu, hd⟩ := dec_err S hn
  refine ⟨⟨u, hu, ?_⟩, t, ht, ?_⟩
  · rw [hd, ← not_levelsLegal_iff]
    split
    next hl => exact iff_of_false (by decide) (not_not_intro hl)
    next hl => exact iff_of_true rfl hl
  · rw [he]
    split <;> decide

/-- R186, R187: an operation of CORE that ends with an error gives no output and no warning. -/
theorem core_error_counts {dir : Bool} {sid : SchemeId} (hx : exec (coreInstr dir sid) s = .next t)
    (he : t.err ≠ .noError) : t.wcnt = 0 ∧ t.olen = 0 ∧ t.padcnt = 0 := by
  obtain ⟨e, rfl⟩ | ⟨sid', hi⟩ := exec_error hx he
  · exact ⟨rfl, rfl, rfl⟩
  · exact absurd hi (coreInstr_ne_noise dir sid sid')

/-- Settles O20: a reserved word has the scheme error, and an operation of a scheme the code of its direction. -/
theorem errorPriority : Obligations.ErrorPriority := by
  intro s dir sid hn
  cases sid with
  | reserved => exact ⟨_, exec_reserved dir, fun _ => rfl, nofun, nofun, core_error_counts (exec_reserved dir)⟩
  | known S =>
    cases dir
    · obtain ⟨t, ht, he⟩ := enc_err S hn
      exact ⟨t, ht, nofun, fun _ hS _ => he, nofun, core_error_counts ht⟩
    · obtain ⟨t, ht, he⟩ := dec_err S hn
      refine ⟨t, ht, nofun, nofun, fun S' hS _ => ?_, core_error_counts ht⟩
      cases hS
      exact he

end Sys2Proof.Machine
end

section
/-! PROOFS. O8, O9, O12 to O14 and O57: what the host writes and reads while `BUSY` = 1 and while `BUSY` = 0, reset, and
the end of a started transaction. -/

namespace Sys2Proof.Machine

variable {s : State}

/-! Host writes to CORE (R28, R214, R216) -/

/-- R28: `STATUS`, `OLEN`, `PADCNT` and `WCNT` ignore a host write. -/
theorem writeReg_ignored {r : Nat} (v : Nat) (hl : 2 ≤ r) (hu : r ≤ 5) : s.writeReg r v = .next s := by
  interval_cases r <;> rfl

theorem writeIlen_busy (v : Nat) (hb : s.busy = true) : s.writeIlen v = s := if_pos hb

theorem writeIlen_idle (v : Nat) (hb : s.busy = false) : s.writeIlen v = { s with ilen := v % 2 ^ s.cfg.lenW } :=
  if_neg (ne_true_of_eq_false hb)

theorem writeIbuf_busy (i v : Nat) (hb : s.busy = true) : s.writeIbuf i v = s := if_pos hb

theorem writeReg_busy {r : Nat} (v : Nat) (hb : s.busy = true) (hr : r ≤ 5) : s.writeReg r v = .next s := by
  match r with
  | 0 => exact writeCmd_busy v hb
  | 1 => exact congrArg Host.Outcome.next (writeIlen_busy v hb)
  | r + 2 => exact writeReg_ignored v (Nat.le_add_left 2 r) hr

/-- R216: while `BUSY` = 1 a host write to a place of CORE is ignored. -/
theorem hostWrite_busy {w : HostWrite} (hb : s.busy = true) (hw : w.inCore s.cfg = true) : hostWrite w s = .next s := by
  cases w with
  | reg r v => exact writeReg_busy v hb (of_decide_eq_true hw)
  | ibuf i v => exact (atIndex_of_lt (of_decide_eq_true hw)).trans (congrArg Host.Outcome.next (writeIbuf_busy i v hb))
  | obuf i v => exact atIndex_of_lt (of_decide_eq_true hw)
  | wbuf i v => exact atIndex_of_lt (of_decide_eq_true hw)
  | nin | nlen | nprob => cases hw

theorem step_hostWrite_busy {w : HostWrite} {rest : List Event} (hb : s.busy = true) (hw : w.inCore s.cfg = true)
    (he : s.events = .write w :: rest) : step s = .next { s with events := rest } :=
  (step_hostWrite he).trans (hostWrite_busy hb hw)

/-- Settles O8: the step is the host write, and the busy block ignores it. -/
theorem busyIgnoresHostWrites : Obligations.BusyIgnoresHostWrites := fun _ _ _ => step_hostWrite_busy

/-- Settles O9: `IBUF` and `CMD` by their steps, `ILEN` by its width, and every other place because it ignores a write
whatever `BUSY` is. -/
theorem idleHostWrites : Obligations.IdleHostWrites := by
  intro s w rest hb he
  refine ⟨?_, ?_, ?_, ?_, ?_, ?_⟩
  · rintro i v rfl hi
    exact step_ibufWrite hb hi he
  · rintro v rfl
    exact (step_hostWrite he).trans (congrArg Host.Outcome.next (writeIlen_idle v hb))
  · rintro v rfl hi
    exact step_cmdWrite hb hi he
  · rintro r v rfl hl hu
    exact (step_hostWrite he).trans (writeReg_ignored v hl hu)
  · rintro i v rfl hi
    exact (step_hostWrite he).trans (atIndex_of_lt hi)
  · rintro i v rfl hi
    exact (step_hostWrite he).trans (atIndex_of_lt hi)

/-! Host reads (R215, R217, R161) -/

/-- R215: while `BUSY` = 0 a control register reads as its stored value. -/
theorem hostReadReg_idle {r v : Nat} (hb : s.busy = false) (hv : s.regValue r = some v) : hostReadReg s r = .ok v := by
  simp only [hostReadReg, hb, Bool.false_eq_true, if_false, hv]

/-- R217: while `BUSY` = 1 a control register reads as R217 says. -/
theorem hostReadReg_busy {r v : Nat} (hb : s.busy = true) (hv : s.busyRegValue r = some v) : hostReadReg s r = .ok v := by
  simp only [hostReadReg, hb, if_true, hv]

/-- R31: while `BUSY` = 0 `STATUS` is the error code at bits 2:1. -/
theorem hostReadReg_status_idle {e : ErrCode} (hb : s.busy = false) (he : s.err = e) :
    hostReadReg s 2 = .ok (2 * e.code) :=
  hostReadReg_idle hb (by rw [State.regValue, hb, he]; rfl)

theorem hostReadObuf_of_getElem? {i : Nat} {e : Elem} (hb : s.busy = false) (hi : i < s.cfg.maxOut)
    (he : s.obuf[i]? = some e) : hostReadObuf s i = .ok e := by
  rw [hostReadObuf_idle s hb hi, State.readObuf, he, Option.getD_some]

/-- R76: a record whose `val` fits its field is kind * 2^`LEN_W` + val. -/
theorem Warning.word_of_val_lt {c : Config} {w : Warning} (h : w.val < 2 ^ c.lenW) :
    w.word c = (if w.kind = .padding then 1 else 0) * 2 ^ c.lenW + w.val := by
  rw [Warning.word, Config.cutLen, Nat.mod_eq_of_lt h]
  cases w.kind <;> rfl

theorem hostReadWbuf_of_getElem? {i : Nat} {w : Warning} (hb : s.busy = false) (hi : i < s.cfg.maxW)
    (hw : s.wbuf[i]? = some w) : hostReadWbuf s i = .ok (w.word s.cfg) := by
  rw [hostReadWbuf_idle s hb hi, State.readWbuf, hw, Option.getD_some]

/-- R161: `NOUT` is read whatever `BUSY` is. -/
theorem hostReadNout_lt {i : Nat} (hu : s.cfg.hasNoiseUnit = true) (hi : i < s.cfg.noiseCap) :
    hostReadNout s i = some (s.readNout i) := if_pos ⟨hu, hi⟩

theorem hostReadNout_of_getElem? {i : Nat} {e : Elem} (hu : s.cfg.hasNoiseUnit = true) (hi : i < s.cfg.noiseCap)
    (he : s.nout[i]? = some e) : hostReadNout s i = some e := by
  rw [hostReadNout_lt hu hi, State.readNout, he, Option.getD_some]

/-- Settles O12: each register by its stored value, `STATUS` by the code of its error, and each buffer by what is listed
in it. -/
theorem hostReadsReturnStoredValues : Obligations.HostReadsReturnStoredValues := by
  refine fun s => ⟨fun hb => ⟨hostReadReg_idle hb rfl, hostReadReg_idle hb rfl, hostReadReg_status_idle hb,
    hostReadReg_status_idle hb, hostReadReg_status_idle hb, hostReadReg_status_idle hb, hostReadReg_idle hb rfl,
    hostReadReg_idle hb rfl, hostReadReg_idle hb rfl, fun i hi => ?_, fun i hi => ?_, fun i hi => ?_⟩,
    fun hu i hi => ?_⟩
  · exact ⟨⟨_, hostReadIbuf_lt s hi⟩, fun e => hostReadIbuf_of_read hi⟩
  · exact ⟨⟨_, hostReadObuf_idle s hb hi⟩, fun e => hostReadObuf_of_getElem? hb hi⟩
  · refine ⟨⟨_, hostReadWbuf_idle s hb hi, Warning.word_lt _ _⟩, fun w hw hv => ?_⟩
    rw [hostReadWbuf_of_getElem? hb hi hw, Warning.word_of_val_lt hv]
  · exact ⟨⟨_, hostReadNout_lt hu hi⟩, fun e => hostReadNout_of_getElem? hu hi⟩

theorem statusWord_busy {e : Nat} (he : e < 4) : statusWord true e % 2 = 1 ∧ statusWord true e < 8 := by
  simp only [statusWord, if_true]
  omega

/-- Settles O13: `CMD`, `ILEN` and `IBUF` are stable, and `STATUS` has bit 0 set, whatever its two `ERR` bits are. -/
theorem busyRegisterReads : Obligations.BusyRegisterReads :=
  fun s hb => ⟨⟨_, hostReadReg_busy hb rfl, statusWord_busy (Nat.mod_lt _ (by decide))⟩, hostReadReg_busy hb rfl,
    hostReadReg_busy hb rfl, fun _ hi => hostReadIbuf_lt s hi⟩

/-! Reset (R210, R39) -/

theorem step_reset {rest : List Event} (he : s.events = .reset :: rest) :
    step s = .next ({ s with events := rest } : State).hardReset := by
  rw [step, fetch, he]

/-- Settles O14: hardware reset gives the registers and buffers of the power-on state. -/
theorem resetGivesTheIdleState : Obligations.ResetGivesTheIdleState :=
  ⟨fun _ _ he => ⟨_, step_reset he, rfl, rfl, rfl, rfl, rfl, rfl, rfl, rfl, rfl, rfl, rfl, rfl⟩,
    rfl, rfl, rfl, rfl, rfl, rfl, rfl⟩

/-! The end of a started transaction (R222) -/

theorem runSteps_succ {t : State} (k : Nat) (h : step s = .next t) : runSteps (k + 1) s = runSteps k t := by
  rw [runSteps, h]

/-- R216: a busy block passes over any list of host writes to CORE. -/
theorem runSteps_busyWrites (ws : List HostWrite) (rest : List Event) (k : Nat) (hb : s.busy = true)
    (hw : ∀ w ∈ ws, w.inCore s.cfg = true) (he : s.events = ws.map .write ++ rest) :
    runSteps (ws.length + k) s = runSteps k { s with events := rest } := by
  induction ws generalizing s with
  | nil =>
    obtain rfl : s.events = rest := he
    rw [List.length_nil, Nat.zero_add]
  | cons w ws ih =>
    obtain ⟨hw, hws⟩ := List.forall_mem_cons.1 hw
    rw [List.length_cons, Nat.add_right_comm, runSteps_succ _ (step_hostWrite_busy hb hw he)]
    exact ih hb hws rfl

theorem State.Started.withEvents (hs : s.Started) (rest : List Event) : ({ s with events := rest } : State).Started :=
  { hs with }

/-- R95, R222: the engine's move ends a started transaction, and leaves its command and its input in place. -/
theorem step_started (hs : s.Started) (he : s.events = []) :
    ∃ t, step s = .next t ∧ t.busy = false ∧ s.SameInput t := by
  obtain ⟨t, hx, -, ht⟩ := core_results (dirField s.lcmd) (SchemeId.ofWord (schemeField s.lcmd)) hs
  exact ⟨t, (step_busy_noEvent hs.busy he).trans hx, ht, exec_sameInput hx⟩

/-- Settles O57: the writes are passed over one by one, and then no event is left and the engine moves. -/
theorem everyTransactionEnds : Obligations.EveryTransactionEnds := by
  intro s ws hs hw he
  obtain ⟨t, hx, ht, hk⟩ := step_started (hs.withEvents []) rfl
  refine ⟨t, ?_, ht, hk.cmd, hk.ibuf⟩
  rw [runSteps_busyWrites ws [] 1 hs.busy hw (by rw [he, List.append_nil]), runSteps_succ 0 hx, runSteps]

end Sys2Proof.Machine
end
